-- ==== Sys2Proof/Word.lean ====
section
/-! DEFINITION. The widths of the block's values (R4, R5). Every value is unsigned and bits are numbered
from 0 at the least significant end (R9), which is the numbering of `BitVec.getLsbD`. -/

namespace Sys2Proof

/-- A RawCode, or a candidate MarkerId as a command carries it (R4, R61). -/
abbrev Byte := BitVec 8
/-- A nibble: one of the five slices of a marker code (R4, R120). -/
abbrev Nibble := BitVec 4
/-- A codeword, or a received word: any 7 bits (R4, R121; C5). -/
abbrev Codeword := BitVec 7
/-- A syndrome (R4, R124). -/
abbrev Syndrome := BitVec 3
/-- A checksum (R100). -/
abbrev Checksum := BitVec 12
/-- A marker code (R4). -/
abbrev MarkerCode := BitVec 20
/-- A command word, as the host writes it to CMD (R60). -/
abbrev Word := BitVec 32
/-- What RES holds; a grid fills it (R4, R21, R153). -/
abbrev Res := BitVec 36
/-- What the STATUS port carries: bit 0 is INV, bit 1 is ILL (R23). -/
abbrev Status := BitVec 2

end Sys2Proof
end

