-- ==== Sys2Proof/Syntax.lean ====
section
/-! DEFINITION. The syntax of commands: one constructor per row of spec/opcode_table.json (R61). Each operand has the
width R62 and R63 give it, so a nonzero unused bit (R65) cannot be written here. -/

namespace Sys2Proof

/-- The eleven commands (R61). -/
inductive Instr where
  /-- Forward lookup, RawCode to MarkerId (R83). -/
  | fwd (r : Byte)
  /-- Reverse lookup, candidate MarkerId to RawCode (R84). -/
  | rev (i : Byte)
  /-- Checksum of a RawCode (R104). -/
  | crc12 (r : Byte)
  /-- Marker code of a RawCode (R105). -/
  | code (r : Byte)
  /-- Hamming encode (R127). -/
  | enc (n : Nibble)
  /-- Syndrome of a received word (R128). -/
  | syn (c : Codeword)
  /-- Flip the bit a syndrome names (R129). -/
  | cor (c : Codeword) (v : Syndrome)
  /-- Decode with single-error correction (R130). -/
  | dec (c : Codeword)
  /-- One block of a marker code (R157); `j` is operand B, legal for 0 to 4 only (R63). -/
  | slice (m : MarkerCode) (j : BitVec 3)
  /-- The grid of a marker code (R158). -/
  | grid (m : MarkerCode)
  /-- The grid of an identifier (R159). -/
  | mark (i : Byte)
deriving DecidableEq, Repr

/-- The operations the op field selects (R61): a command less its operands. -/
inductive Op where
  | fwd | rev | crc12 | code | enc | syn | cor | dec | slice | grid | mark
deriving DecidableEq, Repr

/-- The operation of a command. -/
def Instr.op : Instr → Op
  | .fwd _ => .fwd
  | .rev _ => .rev
  | .crc12 _ => .crc12
  | .code _ => .code
  | .enc _ => .enc
  | .syn _ => .syn
  | .cor _ _ => .cor
  | .dec _ => .dec
  | .slice _ _ => .slice
  | .grid _ => .grid
  | .mark _ => .mark

end Sys2Proof
end

