-- ==== Sys2Proof/WellFormed.lean ====
section
/-! DEFINITION. Which commands a legal word can carry (R63, R65). The operand widths are in the types of `Instr`; the one
check left is SLICE's block index. -/

namespace Sys2Proof

/-- R63: SLICE's block index is 0 to 4. Every other command is well formed with any operands of its widths (R62, R63). -/
def Instr.wellFormed : Instr → Bool
  | .fwd _ => true
  | .rev _ => true
  | .crc12 _ => true
  | .code _ => true
  | .enc _ => true
  | .syn _ => true
  | .cor _ _ => true
  | .dec _ => true
  | .slice _ j => decide (j.toNat ≤ 4)
  | .grid _ => true
  | .mark _ => true

end Sys2Proof
end

