-- ==== Sys2Proof/Decode.lean ====
section
/-! DEFINITION. The command word (R60): its fields, which words are legal (R65, R66), why a word is illegal (R182), the
decoder, and after it the encoder. A word crosses the CMD port whole, so there is no byte order (R43). -/

namespace Sys2Proof

/-! ### Fields (R60) -/

/-- w[31:28]: operation select (R60). -/
def opField (w : Word) : BitVec 4 := w.extractLsb' 28 4
/-- w[27:23]: reserved, must be 0 (R60, R64). -/
def rsvField (w : Word) : BitVec 5 := w.extractLsb' 23 5
/-- w[22:20]: operand B (R60, R63). -/
def bField (w : Word) : BitVec 3 := w.extractLsb' 20 3
/-- w[19:0]: operand A (R60, R62). -/
def aField (w : Word) : BitVec 20 := w.extractLsb' 0 20

/-! ### The opcode map (R61) -/

/-- The op field of an operation (R61). -/
def Op.number : Op → BitVec 4
  | .fwd => 0x1
  | .rev => 0x2
  | .crc12 => 0x3
  | .code => 0x4
  | .enc => 0x5
  | .syn => 0x6
  | .cor => 0x7
  | .dec => 0x8
  | .slice => 0x9
  | .grid => 0xA
  | .mark => 0xB

/-- The operation an op field selects; 0x0 and 0xC to 0xF are reserved (R61, R67). -/
def opOf (op : BitVec 4) : Option Op :=
  match op.toNat with
  | 0x1 => some .fwd
  | 0x2 => some .rev
  | 0x3 => some .crc12
  | 0x4 => some .code
  | 0x5 => some .enc
  | 0x6 => some .syn
  | 0x7 => some .cor
  | 0x8 => some .dec
  | 0x9 => some .slice
  | 0xA => some .grid
  | 0xB => some .mark
  | _ => none

/-- The width of operand A (R62). -/
def Op.aWidth : Op → Nat
  | .fwd => 8
  | .rev => 8
  | .crc12 => 8
  | .code => 8
  | .mark => 8
  | .enc => 4
  | .syn => 7
  | .cor => 7
  | .dec => 7
  | .slice => 20
  | .grid => 20

/-- The largest value of operand B (R63): any for COR, a block index for SLICE, else 0. -/
def Op.bMax : Op → Nat
  | .cor => 7
  | .slice => 4
  | .fwd | .rev | .crc12 | .code | .enc | .syn | .dec | .grid | .mark => 0

/-- Operand A has no bit above its width (R62). -/
def Op.aFits (o : Op) (a : Nat) : Bool := decide (a < 2 ^ o.aWidth)

/-- Operand B keeps R63. -/
def Op.bFits (o : Op) (b : Nat) : Bool := decide (b ≤ o.bMax)

/-! ### Legality, as R65 and R66 write it -/

/-- `Legal(w)`, case by case as R65 has it. -/
def legal (w : Word) : Bool :=
  let a := aField w
  let b := bField w
  rsvField w == 0 &&
    match (opField w).toNat with
    | 0x1 | 0x2 | 0x3 | 0x4 | 0xB => b == 0 && a.extractLsb' 8 12 == 0
    | 0x5 => b == 0 && a.extractLsb' 4 16 == 0
    | 0x6 | 0x8 => b == 0 && a.extractLsb' 7 13 == 0
    | 0x7 => a.extractLsb' 7 13 == 0
    | 0x9 => decide (b.toNat ≤ 4)
    | 0xA => b == 0
    | _ => false

/-- The match column of R66. -/
def Op.matchWord : Op → Word
  | .fwd => 0x10000000
  | .rev => 0x20000000
  | .crc12 => 0x30000000
  | .code => 0x40000000
  | .enc => 0x50000000
  | .syn => 0x60000000
  | .cor => 0x70000000
  | .dec => 0x80000000
  | .slice => 0x90000000
  | .grid => 0xA0000000
  | .mark => 0xB0000000

/-- The mask column of R66. -/
def Op.maskWord : Op → Word
  | .fwd => 0xFFFFFF00
  | .rev => 0xFFFFFF00
  | .crc12 => 0xFFFFFF00
  | .code => 0xFFFFFF00
  | .enc => 0xFFFFFFF0
  | .syn => 0xFFFFFF80
  | .cor => 0xFF8FFF80
  | .dec => 0xFFFFFF80
  | .slice => 0xFF800000
  | .grid => 0xFFF00000
  | .mark => 0xFFFFFF00

/-- A word matches a row of R66, the row's extra condition included (SLICE: w[22:20] ≤ 4). -/
def Op.matchesRow (o : Op) (w : Word) : Bool :=
  w &&& o.maskWord == o.matchWord && (o != .slice || decide ((bField w).toNat ≤ 4))

/-! ### Decoding -/

/-- Why a word is illegal (R182). The block records none of these (R184). -/
inductive Reason where
  /-- ILL_OPCODE: the op field names no operation. -/
  | illOpcode
  /-- ILL_RSV: the op field names an operation and the reserved field is not 0. -/
  | illRsv
  /-- ILL_B: so far legal, and operand B breaks R63. -/
  | illB
  /-- ILL_A: so far legal, and operand A has a bit above its width (R62). -/
  | illA
deriving DecidableEq, Repr

/-- The command an operation makes of the operand fields; A is cut to its width (R61, R62, R63). -/
def Op.command (o : Op) (a : BitVec 20) (b : BitVec 3) : Instr :=
  match o with
  | .fwd => .fwd (a.setWidth 8)
  | .rev => .rev (a.setWidth 8)
  | .crc12 => .crc12 (a.setWidth 8)
  | .code => .code (a.setWidth 8)
  | .enc => .enc (a.setWidth 4)
  | .syn => .syn (a.setWidth 7)
  | .cor => .cor (a.setWidth 7) b
  | .dec => .dec (a.setWidth 7)
  | .slice => .slice a b
  | .grid => .grid a
  | .mark => .mark (a.setWidth 8)

/-- The decoder: a legal word gives its command, an illegal one the first of R182's reasons that holds.
Total over all 2^32 words (R65, R68). -/
def decode (w : Word) : Except Reason Instr :=
  match opOf (opField w) with
  | none => .error .illOpcode
  | some o =>
    if rsvField w ≠ 0 then .error .illRsv
    else if !o.bFits (bField w).toNat then .error .illB
    else if !o.aFits (aField w).toNat then .error .illA
    else .ok (o.command (aField w) (bField w))

/-! ### Encoding -/

/-- The word with the given op, operand B and operand A, and rsv = 0 (R60). -/
def packWord (op : BitVec 4) (b : BitVec 3) (a : BitVec 20) : Word := op ++ 0#5 ++ b ++ a

/-- Operand A of a command, zero-extended (R60, R62). -/
def Instr.operandA : Instr → BitVec 20
  | .fwd r => r.setWidth 20
  | .rev i => i.setWidth 20
  | .crc12 r => r.setWidth 20
  | .code r => r.setWidth 20
  | .enc n => n.setWidth 20
  | .syn c => c.setWidth 20
  | .cor c _ => c.setWidth 20
  | .dec c => c.setWidth 20
  | .slice m _ => m
  | .grid m => m
  | .mark i => i.setWidth 20

/-- Operand B of a command; 0 where it has none (R60, R63). -/
def Instr.operandB : Instr → BitVec 3
  | .cor _ v => v
  | .slice _ j => j
  | .fwd _ | .rev _ | .crc12 _ | .code _ | .enc _ | .syn _ | .dec _ | .grid _ | .mark _ => 0

/-- The word of a command (R60, R61). It is legal when the command is well formed. -/
def encode (i : Instr) : Word := packWord i.op.number i.operandB i.operandA

/-! ### The opcode table's numbering -/

/-- The instruction whose table bits are `w`, as the word the host writes: every command is one 32-bit word (R68), and
bits above `nbits` are 0. -/
def tableWord (nbits w : Nat) : Word := BitVec.ofNat 32 (w % 2 ^ nbits)

/-- What the decoder reads from an instruction whose bits are `w`, numbered as spec/opcode_table.json numbers them. -/
def decodeTableWord (nbits w : Nat) : Option Instr :=
  match decode (tableWord nbits w) with
  | .ok i => some i
  | .error _ => none

end Sys2Proof
end

