-- ==== Sys2Proof/Machine/Operands.lean ====
section
/-! DEFINITION. The bit-field operations the units share: bit lists and the values they stand for (R11, R120, R121),
blocks of a marker code (R150) and the widening of a result to RES (R22). -/

namespace Sys2Proof.Machine

/-- The number whose bits are listed from bit 0 upward: Σ yᵢ·2^i (R11, R121). -/
def bitsToNat : List Bool → Nat
  | [] => 0
  | b :: bs => b.toNat + 2 * bitsToNat bs

/-- The `w`-bit value whose bits are listed from bit 0 upward (R11, R122). -/
def packBits (w : Nat) (bits : List Bool) : BitVec w := BitVec.ofNat w (bitsToNat bits)

/-- `zext_36` (R10, R22): what a result narrower than RES becomes in RES. -/
def zext36 {n : Nat} (v : BitVec n) : Res := v.setWidth 36

/-- Block j of a marker code is m[4j+3 : 4j]; block 0 is the least significant (R150). -/
def block (m : MarkerCode) (j : Nat) : Nibble := m.extractLsb' (4 * j) 4

/-- INVALID_WORD = 2^36 − 1 (R25). -/
def invalidWord : Res := 0xFFFFFFFFF

end Sys2Proof.Machine
end

