-- ==== Sys2Proof/Machine/Flags.lean ====
section
/-! DEFINITION. What a legal command's rule returns, and what that makes of RES and of STATUS (R23, R24, R25, R180). -/

namespace Sys2Proof.Machine

/-- What the rule of a legal command returns (R180): a value, zero-extended to RES, or the source's "Invalid". -/
inductive Result where
  /-- Outcome (1), Normal: the value RES gets (R22). -/
  | value (v : Res)
  /-- Outcome (2), Invalid (R25). -/
  | invalid
deriving DecidableEq, Repr

/-- What RES becomes (R22, R25). -/
def Result.word : Result → Res
  | .value v => v
  | .invalid => invalidWord

/-- What STATUS.INV becomes: 1 exactly for INVALID (R24). -/
def Result.inv : Result → Bool
  | .value _ => false
  | .invalid => true

/-- STATUS as its port shows it: bit 0 is INV, bit 1 is ILL (R23). -/
def statusWord (inv ill : Bool) : Status := packBits 2 [inv, ill]

end Sys2Proof.Machine
end

