-- ==== Sys2Proof/Config.lean ====
section
/-! DEFINITION. What is fixed when the block is built (R29, R203): the parameters BLACKLIST, CRC12_REFOUT and
LAST_CELL (R6, R7, R8), and the contents the registers happen to have at power-on (R201). The machine takes the
parameters from its state, where no step changes them; this file says which values `State.reset` has. -/

namespace Sys2Proof

/-- The blacklist members the source names (R6 (b)). -/
def listedMembers : List Byte := [2, 3, 8, 9, 255]

/-- The bytes whose membership the source does not fix: all but the five listed members and 0 (R6 (b), (c)). -/
def isOpenByte (r : Byte) : Bool := r != 0 && !listedMembers.contains r

/-- What R6 (a) asks of the members the source does not list: 22 of them, none already settled; written in ascending
order, so that one set has one representation. -/
abbrev unlistedWf (rest : List Byte) : Prop :=
  rest.length = 22 ∧ (∀ r ∈ rest, isOpenByte r = true) ∧ rest.Pairwise (fun x y => x.toNat < y.toNat)

/-- A value of the open parameter BLACKLIST (R6): the five listed members and the 22 others. -/
structure Blacklist where
  /-- The 22 members the source does not list. -/
  rest : List Byte
  /-- They complete the listed ones to a set that meets R6. -/
  wf : unlistedWf rest
deriving DecidableEq, Repr

/-- The 22 unlisted members in the block at hand: open (R6; D18; N2), so a constant with no body. -/
opaque Config.unlisted : List Byte

/-- DESIGN CHOICE (log entry 5), safe. Some set that meets R6, for the case that `Config.unlisted` is no value of the
parameter at all. Nothing can be proved of which case holds. -/
def Config.anyBlacklist : Blacklist :=
  ⟨[10, 11, 12, 13, 14, 15, 16, 17, 18, 19, 20, 21, 22, 23, 24, 25, 26, 27, 28, 29, 30, 31], by decide⟩

/-- The parameter BLACKLIST of the block at hand. Every value R6 allows is the one that some `Config.unlisted` gives. -/
def Config.blacklist : Blacklist :=
  if h : unlistedWf Config.unlisted then ⟨Config.unlisted, h⟩ else Config.anyBlacklist

/-- DESIGN CHOICE of the spec (D17; log entry 7): the default of CRC12_REFOUT (R7). -/
def Config.crc12Refout : Bool := true

/-- DESIGN CHOICE of the spec (D15; log entry 8): the default of LAST_CELL (R8). -/
def Config.lastCell : Bool := false

/-- What RES happens to hold at power-on: unspecified (R201), and read by no step. -/
opaque Config.powerOnRes : Res
/-- What STATUS.INV happens to hold at power-on: unspecified (R201), and read by no step. -/
opaque Config.powerOnInv : Bool
/-- What STATUS.ILL happens to hold at power-on: unspecified (R201), and read by no step. -/
opaque Config.powerOnIll : Bool

end Sys2Proof
end

