-- ==== Sys2Proof/Machine/State.lean ====
section
/-! DEFINITION. What the machine holds (R20), why a step can stop, and the state right after reset (R34, R200). -/

namespace Sys2Proof.Machine

/-- The code-table ROM (R31). Its two arrays FWD_ROM and REV_ROM are functions of BLACKLIST (R20, R80, R81), so the ROM is
held once, as that set; `romFwd` and `romRev` read the arrays (R31: "the storage layout is not visible to the host").
DEDUCED (log entry 6), safe. -/
structure Rom where
  /-- The parameter BLACKLIST the ROM was built from (R6, R203). -/
  blacklist : Blacklist
deriving DecidableEq, Repr

/-- The other values fixed when the block is built: parameters of the model, not registers (R29, R203). -/
structure Build where
  /-- CRC12_REFOUT (R7). -/
  crc12Refout : Bool
  /-- LAST_CELL (R8). -/
  lastCell : Bool
deriving DecidableEq, Repr

/-- Whether RST has been asserted since power-on (R201). -/
inductive Phase where
  /-- Power-on, before the first reset: RES, INV and ILL hold no value (R34, R201). -/
  | unreset
  /-- After the first reset: every register is defined (R201). -/
  | ready
deriving DecidableEq, Repr

/-- One step of the host (R207). -/
inductive HostStep where
  /-- Assert RST (R200). -/
  | reset
  /-- Write a word to CMD (R45, R65). -/
  | write (w : Word)
  /-- Read the RES port (R45). -/
  | readRes
  /-- Read the STATUS port (R45). -/
  | readStatus
deriving DecidableEq, Repr

/-- A value a read returned (R207). -/
inductive Reading where
  /-- All 36 bits of RES (R45). -/
  | res (v : Res)
  /-- Both bits of STATUS (R45). -/
  | status (v : Status)
deriving DecidableEq, Repr

/-- The block's state (R20), its build parameters (R29), and its host's place in a run (R28, R207). -/
structure State where
  /-- RES, the result register (R21). -/
  res : Res
  /-- STATUS.INV: the last legal command returned INVALID (R23, R24). -/
  inv : Bool
  /-- STATUS.ILL: an illegal word has been written since the last reset (R23, R26). -/
  ill : Bool
  /-- Whether the three registers hold values yet (R201). -/
  phase : Phase
  /-- The code-table ROM, constant (R31, R32). -/
  rom : Rom
  /-- The other build parameters, constant (R29). -/
  build : Build
  /-- The host's steps still to be taken, next first: what takes the place of a program counter (R28). The host's state,
  not the block's. DESIGN CHOICE (log entry 1), safe. -/
  todo : List HostStep
  /-- What the host's reads have returned, oldest first (R207). The host's state, not the block's. -/
  readings : List Reading
deriving DecidableEq, Repr

/-- Why the machine can stop. All of these are the spec's. -/
inductive Fault where
  /-- Raised by a read of RES or STATUS before the first reset (R34, R201). Safe: the spec gives no value to return. -/
  | readBeforeReset
  /-- Raised by a command word written before the first reset, legal or not (R201). Safe: the spec gives it no effect. -/
  | commandBeforeReset
  /-- Raised by `romRev` for an index above 228 (R42). Safe, and no command reaches it. -/
  | romRevIndex
deriving DecidableEq, Repr

/-- Why the machine can have no meaning for an instruction. -/
inductive Refusal where
  /-- Raised by `exec` for an instruction that has no meaning yet. Safe. No instruction of this block is left so. -/
  | notModelled (mnemonic : String)
deriving DecidableEq, Repr

/-- The state right after RST (R34, R200) of a block built with the given parameters, its host with no step to take and
nothing read. The model takes the parameters as arguments (R6, R7, R8). -/
def State.resetWith (rom : Rom) (build : Build) : State where
  res := 0
  inv := false
  ill := false
  phase := .ready
  rom := rom
  build := build
  todo := []
  readings := []

/-- The block's state at power-on, before the first reset (R201): the registers' contents are unspecified. -/
def State.powerOnWith (rom : Rom) (build : Build) (todo : List HostStep) : State where
  res := Config.powerOnRes
  inv := Config.powerOnInv
  ill := Config.powerOnIll
  phase := .unreset
  rom := rom
  build := build
  todo := todo
  readings := []

/-- The ROM of the block at hand (R203). -/
def Rom.config : Rom := ⟨Config.blacklist⟩

/-- The other parameters of the block at hand, at the spec's defaults (R7, R8). -/
def Build.config : Build := ⟨Config.crc12Refout, Config.lastCell⟩

/-- The machine right after reset (R34, R200). -/
def State.reset : State := State.resetWith Rom.config Build.config

/-- The machine at power-on, its host about to take the steps `todo` (R201, R203). -/
def State.powerOn (todo : List HostStep) : State := State.powerOnWith Rom.config Build.config todo

end Sys2Proof.Machine
end

