-- ==== Sys2Proof/Machine/Ops.lean ====
section
/-! DEFINITION. Everything that can happen to the registers and to the host's place in a run: a legal command's one write
(R21), the illegal-command effect (R183), reset (R200), the two reads (R45). -/

namespace Sys2Proof.Machine

/-! ### Updates of the state -/

/-- A legal command writes RES and STATUS.INV together (R21, R24, R50), and nothing else (R26, R32). -/
def State.writeResult (s : State) (r : Result) : State := { s with res := r.word, inv := r.inv }

/-- STATUS.ILL <- 1 (R26, R183). -/
def State.setIll (s : State) : State := { s with ill := true }

/-- The effect of RST on the block (R34, R200): the three registers are cleared, and from now on they hold values (R201). -/
def State.clear (s : State) : State := { s with res := 0, inv := false, ill := false, phase := .ready }

/-- The host has read a value (R207). The block is unchanged (R45). -/
def State.record (s : State) (v : Reading) : State := { s with readings := s.readings ++ [v] }

/-- The host has these steps still to take (R28). -/
def State.withTodo (s : State) (todo : List HostStep) : State := { s with todo := todo }

/-! ### Commands -/

/-- The end of a legal command: its one write, once the block has been reset; before the first reset a command has no
defined effect and the model faults (R201). -/
def complete (r : Result) (s : State) : Host.Outcome State Fault Refusal :=
  match s.phase with
  | .unreset => .fault .commandBeforeReset
  | .ready => .next (s.writeResult r)

/-- `raise IllegalCommand(w, reason)` (R183), the block's only exception-like condition (R182): ILL is set and nothing
else changes. No word and no reason is recorded (R184), nothing is saved and nothing is left to return from (R188, R189).
Before the first reset it faults like any command (R201). -/
def raiseIllegal (_w : Word) (_why : Reason) (s : State) : Host.Outcome State Fault Refusal :=
  match s.phase with
  | .unreset => .fault .commandBeforeReset
  | .ready => .next s.setIll

/-! ### Ports -/

/-- A read of RES: the host gets all 36 bits, the block is unchanged (R45); a fault before the first reset (R201). -/
def readRes (s : State) : Host.Outcome State Fault Refusal :=
  match s.phase with
  | .unreset => .fault .readBeforeReset
  | .ready => .next (s.record (.res s.res))

/-- A read of STATUS: the host gets INV and ILL from the same state (R45); a fault before the first reset (R201). -/
def readStatus (s : State) : Host.Outcome State Fault Refusal :=
  match s.phase with
  | .unreset => .fault .readBeforeReset
  | .ready => .next (s.record (.status (statusWord s.inv s.ill)))

/-- RST asserted (R200), at any time between commands. -/
def assertReset (s : State) : Host.Outcome State Fault Refusal := .next s.clear

/-! ### The host's sequence -/

/-- The host's next step and the state with that step taken from its sequence; none when it has none left (R28, R207). -/
def nextHostStep (s : State) : Option (HostStep × State) :=
  match s.todo with
  | [] => none
  | h :: rest => some (h, s.withTodo rest)

end Sys2Proof.Machine
end

