-- ==== Sys2Proof/Machine/Checksum.lean ====
section
/-! DEFINITION. The CK unit: CRC-12 (R100, R101), the marker code (R105), and CRC12 and CODE (R104, R105). -/

namespace Sys2Proof.Machine

/-! ### checksum12 -/

/-- One turn of R101's loop: the register shifts right, and 0xF01, the bit-reflection of 0x80F, goes in when the feedback
bit is 1. PRESUMED (log entry 12): R101 marks the register form as general knowledge. -/
def crcTurn (reg : Checksum) (bit : Bool) : Checksum :=
  if reg.getLsbD 0 ^^ bit then (reg >>> 1) ^^^ 0xF01 else reg >>> 1

/-- The bits of the message byte in the order they are fed, x[0] first and x[7] last (R100, R101). -/
def messageBits (x : Byte) : List Bool := (List.range 8).map x.getLsbD

/-- `Crc12Reflected(x)` (R101): initial register 0, no output XOR. -/
def crc12Reflected (x : Byte) : Checksum := (messageBits x).foldl crcTurn 0

/-- `bitrev12(v)` (R101): bit k becomes bit 11 − k. -/
def bitrev12 (v : Checksum) : Checksum := packBits 12 ((List.range 12).map fun k => v.getLsbD (11 - k))

/-- checksum12(r) under a setting of CRC12_REFOUT (R100, R101): the CRC of (r + 1) mod 256. -/
def checksum12 (refout : Bool) (r : Byte) : Checksum :=
  if refout then crc12Reflected (r + 1) else bitrev12 (crc12Reflected (r + 1))

/-- One turn of R101's other register form: the register shifts left, with the polynomial 0x80F. -/
def crcTurnLeft (reg : Checksum) (bit : Bool) : Checksum :=
  if reg.getLsbD 11 ^^ bit then (reg <<< 1) ^^^ 0x80F else reg <<< 1

/-- R101's other register form, which CRC12_REFOUT = false agrees with. No command uses it; statements do. -/
def crc12ShiftLeft (x : Byte) : Checksum := (messageBits x).foldl crcTurnLeft 0

/-! ### The marker code -/

/-- (checksum12(r) << 8) | r: the checksum in bits 19..8, the raw byte in bits 7..0 (R105). -/
def markerCode (refout : Bool) (r : Byte) : MarkerCode :=
  ((checksum12 refout r).setWidth 20 <<< 8) ||| r.setWidth 20

/-! ### Commands -/

/-- CRC12: the checksum of a RawCode (R104). -/
def execCrc12 (r : Byte) (s : State) : Host.Outcome State Fault Refusal :=
  complete (.value (zext36 (checksum12 s.build.crc12Refout r))) s

/-- CODE: the marker code of a RawCode, blacklisted or not (R105; D13). -/
def execCode (r : Byte) (s : State) : Host.Outcome State Fault Refusal :=
  complete (.value (zext36 (markerCode s.build.crc12Refout r))) s

end Sys2Proof.Machine
end

