-- ==== Sys2Proof/Machine/CodeTable.lean ====
section
/-! DEFINITION. The CT unit: the contents of the code-table ROM (R80, R81), the two ways to read it (R41, R42), and FWD and
REV (R83, R84). -/

namespace Sys2Proof.Machine

/-! ### BLACKLIST as a set (R6) -/

/-- All 256 byte values, ascending. -/
def allBytes : List Byte := (List.range 256).map (BitVec.ofNat 8)

/-- r ∈ BLACKLIST (R6): a listed member, or an open byte among the parameter's others. -/
def blacklisted (bl : Blacklist) (r : Byte) : Bool :=
  listedMembers.contains r || (isOpenByte r && bl.rest.contains r)

/-- The members of BLACKLIST, ascending. -/
def blacklistMembers (bl : Blacklist) : List Byte := allBytes.filter fun r => blacklisted bl r

/-- The bytes not in BLACKLIST, ascending: those that have a MarkerId (R80). -/
def nonBlacklisted (bl : Blacklist) : List Byte := allBytes.filter fun r => !blacklisted bl r

theorem mem_allBytes (r : Byte) : r ∈ allBytes :=
  List.mem_map.2 ⟨r.toNat, List.mem_range.2 r.isLt, BitVec.eq_of_toNat_eq (by simp)⟩

theorem nodup_allBytes : allBytes.Nodup := by
  refine List.Nodup.map_on (fun x hx y hy h => ?_) List.nodup_range
  have := congrArg BitVec.toNat h
  simp only [List.mem_range] at hx hy
  simpa [Nat.mod_eq_of_lt hx, Nat.mod_eq_of_lt hy] using this

/-- The members of BLACKLIST are the listed five and the other 22 (R6). -/
theorem blacklistMembers_perm (bl : Blacklist) : (blacklistMembers bl).Perm (listedMembers ++ bl.rest) := by
  obtain ⟨rest, -, hopen, hasc⟩ := bl
  have hrest : rest.Nodup := hasc.imp fun h e => by simp [e] at h
  refine (List.perm_ext_iff_of_nodup (nodup_allBytes.filter _) ?_).2 fun r => ?_
  · refine List.Nodup.append (by decide) hrest fun r hl hr => ?_
    have := hopen r hr
    simp [isOpenByte, hl] at this
  · have := hopen r
    simp only [List.mem_filter, mem_allBytes, true_and, blacklisted, Bool.or_eq_true,
      List.contains_iff_mem, Bool.and_eq_true, List.mem_append]
    tauto

/-- R81: "exactly 229 bytes are not blacklisted". -/
theorem nonBlacklisted_length (bl : Blacklist) : (nonBlacklisted bl).length = 229 := by
  have h27 := (blacklistMembers_perm bl).length_eq
  have hsum := List.length_eq_length_filter_add (l := allBytes) (fun r => blacklisted bl r)
  have h256 : allBytes.length = 256 := by simp [allBytes]
  have h5 : listedMembers.length = 5 := rfl
  simp only [List.length_append, bl.wf.1, h5] at h27
  simp only [nonBlacklisted]
  simp only [blacklistMembers] at h27
  omega

/-! ### The ROM (R31, R80, R81) -/

/-- `RomFwd(r)` (R41): FWD_ROM[r], none for INVALID. A non-blacklisted byte's MarkerId is the number of non-blacklisted
bytes below it, which are the first r of all bytes (R80). Total on all 256 indices. -/
def romFwd (rom : Rom) (r : Byte) : Option Byte :=
  if blacklisted rom.blacklist r then none
  else some (BitVec.ofNat 8
    ((allBytes.take r.toNat).filter fun x => !blacklisted rom.blacklist x).length)

/-- REV_ROM[i] (R81): the byte at position i among the non-blacklisted bytes in ascending order. -/
def revEntry (rom : Rom) (i : Fin 229) : Byte :=
  (nonBlacklisted rom.blacklist).get (i.cast (nonBlacklisted_length rom.blacklist).symm)

/-- `RomRev(i)` (R42): REV_ROM[i] for i in 0..228; for any other index the model faults. -/
def romRev (rom : Rom) (i : Byte) : Except Fault Byte :=
  if h : i.toNat < 229 then .ok (revEntry rom ⟨i.toNat, h⟩) else .error .romRevIndex

/-! ### The reading BL_LOW (R87; D19), which the model does not adopt -/

/-- BLACKLIST ∩ [0,9] = {2,3,8,9} (R6, R87): a hypothesis for the statements that need it. -/
def blLow (bl : Blacklist) : Bool :=
  ((allBytes.take 10).filter fun r => blacklisted bl r) == [2, 3, 8, 9]

/-! ### Commands -/

/-- FWD: forward lookup, from RawCode to MarkerId (R83). -/
def execFwd (r : Byte) (s : State) : Host.Outcome State Fault Refusal :=
  complete
    (match romFwd s.rom r with
      | none => .invalid
      | some m => .value (zext36 m))
    s

/-- REV: reverse lookup, from MarkerId to RawCode (R84; C2). The index is checked before the ROM is read (R42). -/
def execRev (i : Byte) (s : State) : Host.Outcome State Fault Refusal :=
  if i.toNat > 228 then complete .invalid s
  else
    match romRev s.rom i with
    | .ok r => complete (.value (zext36 r)) s
    | .error f => .fault f

end Sys2Proof.Machine
end

