-- ==== Sys2Proof/Machine/Hamming.lean ====
section
/-! DEFINITION. The HC unit: the (7,4) code's generator, syndrome, correction and extraction, bit by bit as R123 to R126 have
them, and ENC, SYN, COR and DEC (R127 to R130). -/

namespace Sys2Proof.Machine

/-! ### Functions -/

/-- encode(n) (R123). p0 is the nibble's most significant bit (R120). UNVERIFIED (log entry 11): I6 says no source example
confirms that reading. -/
def hamEncode (n : Nibble) : Codeword :=
  let p0 := n.getLsbD 3
  let p1 := n.getLsbD 2
  let p2 := n.getLsbD 1
  let p3 := n.getLsbD 0
  packBits 7 [p0 ^^ p1 ^^ p3, p0 ^^ p2 ^^ p3, p0, p1 ^^ p2 ^^ p3, p1, p2, p3]

/-- syndrome(c) (R124), for all 128 values of c. -/
def hamSyndrome (c : Codeword) : Syndrome :=
  let c0 := c.getLsbD 0
  let c1 := c.getLsbD 1
  let c2 := c.getLsbD 2
  let c3 := c.getLsbD 3
  let c4 := c.getLsbD 4
  let c5 := c.getLsbD 5
  let c6 := c.getLsbD 6
  packBits 3 [c0 ^^ c2 ^^ c4 ^^ c6, c1 ^^ c2 ^^ c5 ^^ c6, c3 ^^ c4 ^^ c5 ^^ c6]

/-- correct(c, v) (R125): v = 0 leaves c alone, any other v flips bit v − 1, whatever c holds. -/
def hamCorrect (c : Codeword) (v : Syndrome) : Codeword :=
  if v = 0 then c else c ^^^ (1#7 <<< (v.toNat - 1))

/-- The four data bits of a word, from positions 2, 4, 5 and 6; position 2 gives p0, the most significant (R126). -/
def hamExtract (k : Codeword) : Nibble :=
  packBits 4 [k.getLsbD 6, k.getLsbD 5, k.getLsbD 4, k.getLsbD 2]

/-- decode(c) (R126): correct by the syndrome, then extract. -/
def hamDecode (c : Codeword) : Nibble := hamExtract (hamCorrect c (hamSyndrome c))

/-! ### Commands -/

/-- ENC: Hamming encode (R127). -/
def execEnc (n : Nibble) (s : State) : Host.Outcome State Fault Refusal :=
  complete (.value (zext36 (hamEncode n))) s

/-- SYN: syndrome (R128). -/
def execSyn (c : Codeword) (s : State) : Host.Outcome State Fault Refusal :=
  complete (.value (zext36 (hamSyndrome c))) s

/-- COR: correct one bit; v need not be the syndrome of c (R129; D12). -/
def execCor (c : Codeword) (v : Syndrome) (s : State) : Host.Outcome State Fault Refusal :=
  complete (.value (zext36 (hamCorrect c v))) s

/-- DEC: decode with single-error correction; INV is 0 also when the word has more errors (R130, R131, R185). -/
def execDec (c : Codeword) (s : State) : Host.Outcome State Fault Refusal :=
  complete (.value (zext36 (hamDecode c))) s

end Sys2Proof.Machine
end

