-- ==== Sys2Proof/Machine/Grid.lean ====
section
/-! DEFINITION. The GP unit: packing (R151 to R154), and SLICE, GRID and MARK (R157 to R159). -/

namespace Sys2Proof.Machine

/-! ### Packing -/

/-- Bit i of codeword j of a marker code (R151). -/
def codewordBit (m : MarkerCode) (i j : Nat) : Bool := (hamEncode (block m j)).getLsbD i

/-- Cells 0 to 34 in the order they are filled: the outer loop runs over the bit position i, the inner over the block j
(R151; C1). -/
def packedCells (m : MarkerCode) : List Bool :=
  (List.range 7).flatMap fun i => (List.range 5).map fun j => codewordBit m i j

/-- GridPack(m) (R153): RES bit c is the cell with linear counter c; cell 35 is LAST_CELL (R152). -/
def gridPack (lastCell : Bool) (m : MarkerCode) : Res := packBits 36 (packedCells m ++ [lastCell])

/-- The cell grid[row][col] of a grid held in RES (R153). -/
def gridCell (g : Res) (row col : Nat) : Bool := g.getLsbD (6 * row + col)

/-- Codeword j of a grid that has been read back, gathered with R155's inverse cell map: cell c holds bit c / 5 of
codeword c % 5. The block has no command for it (R160); statements about a decoder use it. -/
def gatherCodeword (g : Res) (j : Nat) : Codeword :=
  packBits 7 ((List.range 7).map fun i => gridCell g ((5 * i + j) / 6) ((5 * i + j) % 6))

/-! ### Commands -/

/-- SLICE: one block of a marker code (R157). DESIGN CHOICE (log entry 9), safe: a block index above 4, which no legal word
carries (R63), has the effect of the illegal word it stands for. -/
def execSlice (m : MarkerCode) (j : BitVec 3) (s : State) : Host.Outcome State Fault Refusal :=
  if j.toNat ≤ 4 then complete (.value (zext36 (block m j.toNat))) s
  else raiseIllegal (encode (.slice m j)) .illB s

/-- GRID: the grid of a marker code, any 20-bit value (R158; D13). -/
def execGrid (m : MarkerCode) (s : State) : Host.Outcome State Fault Refusal :=
  complete (.value (gridPack s.build.lastCell m)) s

/-- MARK: the whole chain from an identifier to its grid, in one step (R3, R50, R159). -/
def execMark (i : Byte) (s : State) : Host.Outcome State Fault Refusal :=
  if i.toNat > 228 then complete .invalid s
  else
    match romRev s.rom i with
    | .ok r => complete (.value (gridPack s.build.lastCell (markerCode s.build.crc12Refout r))) s
    | .error f => .fault f

end Sys2Proof.Machine
end

