-- ==== Sys2Proof/Machine/Dispatch.lean ====
section
/-! DEFINITION. Which meaning each command has (R61). -/

namespace Sys2Proof.Machine

def exec (i : Instr) (s : State) : Host.Outcome State Fault Refusal :=
  match i with
  | .fwd r => Sys2Proof.Machine.execFwd r s
  | .rev k => Sys2Proof.Machine.execRev k s
  | .crc12 r => Sys2Proof.Machine.execCrc12 r s
  | .code r => Sys2Proof.Machine.execCode r s
  | .enc n => Sys2Proof.Machine.execEnc n s
  | .syn c => Sys2Proof.Machine.execSyn c s
  | .cor c v => Sys2Proof.Machine.execCor c v s
  | .dec c => Sys2Proof.Machine.execDec c s
  | .slice m j => Sys2Proof.Machine.execSlice m j s
  | .grid m => Sys2Proof.Machine.execGrid m s
  | .mark k => Sys2Proof.Machine.execMark k s

end Sys2Proof.Machine
end

