-- ==== Sys2Proof/Machine/Execute.lean ====
section
/-! DEFINITION. The command cycle (R65) and what each of the host's steps does (R207). -/

namespace Sys2Proof.Machine

/-- `Execute(w)` (R65): an illegal word raises IllegalCommand with its reason (R182, R183); a legal one runs its command. -/
def execute (w : Word) (s : State) : Host.Outcome State Fault Refusal :=
  match decode w with
  | .error why => raiseIllegal w why s
  | .ok i => exec i s

/-- What one step of the host does (R45, R65, R200, R207). -/
def takeHostStep (h : HostStep) (s : State) : Host.Outcome State Fault Refusal :=
  match h with
  | .reset => assertReset s
  | .write w => execute w s
  | .readRes => readRes s
  | .readStatus => readStatus s

/-- One step of the run: the host's next step. With none left the run has ended (R207), and the state stays as it is.
DESIGN CHOICE (log entry 2), safe. -/
def runStep (s : State) : Host.Outcome State Fault Refusal :=
  match nextHostStep s with
  | none => .next s
  | some (h, s') => takeHostStep h s'

/-- The host is about to write this word, before anything else it has to do (log entry 1). -/
def scheduleWord (w : Word) (s : State) : State := s.withTodo (.write w :: s.todo)

end Sys2Proof.Machine
end

