-- ==== Sys2Proof/Machine/Step.lean ====
section
/-! DEFINITION. One step of the machine: the host's next step (R207), a command being one indivisible step (R50). -/

namespace Sys2Proof.Machine

/-- One step: the host's next step is taken (R48, R207). -/
def step (s : State) : Host.Outcome State Fault Refusal := runStep s

/-- The state in which the host's next step writes the instruction whose bits are `w` to CMD (log entry 1): the block
fetches nothing (R28), so this is how a program reaches it. -/
def State.withFetchWord (s : State) (nbits w : Nat) : State := scheduleWord (tableWord nbits w) s

end Sys2Proof.Machine
end

