-- ==== Sys2Proof/Machine/Assembler.lean ====
section
/-! DEFINITION. The assembler syntax (R69): from the characters of a line to the word it emits. There are no
pseudo-instructions (R70). What R69 does not say of white space, letter case and empty lines is log entry 16. -/

namespace Sys2Proof.Machine

/-! ### Numbers -/

/-- The value of a digit: 0 to 9, and A to F in either case (R69). -/
def digitValue (c : Char) : Option Nat :=
  let n := c.toNat
  if 48 ≤ n ∧ n ≤ 57 then some (n - 48)
  else if 65 ≤ n ∧ n ≤ 70 then some (n - 55)
  else if 97 ≤ n ∧ n ≤ 102 then some (n - 87)
  else none

/-- Digits in a base, the most significant first, after the value `acc`. -/
def digitsValue (base acc : Nat) : List Char → Option Nat
  | [] => some acc
  | c :: cs =>
    match digitValue c with
    | none => none
    | some d => if d < base then digitsValue base (acc * base + d) cs else none

/-- A number: decimal, or `0x` and hexadecimal (R69); at least one digit. -/
def numberValue : List Char → Option Nat
  | [] => none
  | ['0', 'x'] => none
  | '0' :: 'x' :: ds => digitsValue 16 0 ds
  | ds => digitsValue 10 0 ds

/-! ### Lines -/

/-- A piece of a line: a run of characters, or the comma between two operands. -/
inductive Token where
  | text (cs : List Char)
  | comma
deriving DecidableEq, Repr

/-- The run read so far (last character first), if there is one, and then the rest of the line. -/
def endRun (run : List Char) (rest : List Token) : List Token :=
  match run with
  | [] => rest
  | _ :: _ => .text run.reverse :: rest

/-- The pieces of a line. `;` starts a comment (R69); a space or a tab separates. -/
def tokens (run : List Char) : List Char → List Token
  | [] => endRun run []
  | c :: cs =>
    if c = ';' then endRun run []
    else if c = ',' then endRun run (.comma :: tokens [] cs)
    else if c = ' ' ∨ c = '\t' then endRun run (tokens [] cs)
    else tokens (c :: run) cs

/-- The operation a mnemonic names, spelled as R61 spells it. -/
def opNamed (m : List Char) : Option Op :=
  if m = ['F', 'W', 'D'] then some .fwd
  else if m = ['R', 'E', 'V'] then some .rev
  else if m = ['C', 'R', 'C', '1', '2'] then some .crc12
  else if m = ['C', 'O', 'D', 'E'] then some .code
  else if m = ['E', 'N', 'C'] then some .enc
  else if m = ['S', 'Y', 'N'] then some .syn
  else if m = ['C', 'O', 'R'] then some .cor
  else if m = ['D', 'E', 'C'] then some .dec
  else if m = ['S', 'L', 'I', 'C', 'E'] then some .slice
  else if m = ['G', 'R', 'I', 'D'] then some .grid
  else if m = ['M', 'A', 'R', 'K'] then some .mark
  else none

/-- The operations written with two operands (R69). -/
def takesTwo (o : Op) : Bool := o == .cor || o == .slice

/-- Why the assembler rejects a line. -/
inductive AsmError where
  /-- The line has neither of R69's forms. -/
  | badLine
  /-- No operation has this mnemonic. -/
  | unknownMnemonic
  /-- An operand is no number. -/
  | badNumber
  /-- An operand does not fit the widths of R62 or R63, or a `.word` value 32 bits. -/
  | doesNotFit
deriving DecidableEq, Repr

/-- `w = (op << 28) | (b << 20) | a` with rsv = 0, or a rejection when a or b does not fit R62 or R63 (R69). -/
def assembleCommand (o : Op) (a b : Nat) : Except AsmError Word :=
  if o.aFits a && o.bFits b then
    .ok ((o.number.setWidth 32 <<< 28) ||| (BitVec.ofNat 32 b <<< 20) ||| BitVec.ofNat 32 a)
  else .error .doesNotFit

/-- The directive `.word <32-bit value>` emits the value unchanged (R69). -/
def assembleRaw (v : Nat) : Except AsmError Word :=
  if v < 2 ^ 32 then .ok (BitVec.ofNat 32 v) else .error .doesNotFit

/-- `MNEMONIC a`, for every operation but COR and SLICE, or `.word v` (R69). -/
def assembleOne (m x : List Char) : Except AsmError Word :=
  match numberValue x with
  | none => .error .badNumber
  | some v =>
    if m = ['.', 'w', 'o', 'r', 'd'] then assembleRaw v
    else
      match opNamed m with
      | none => .error .unknownMnemonic
      | some o => if takesTwo o then .error .badLine else assembleCommand o v 0

/-- `MNEMONIC a, b`, for COR and SLICE (R69). -/
def assembleTwo (m x y : List Char) : Except AsmError Word :=
  match numberValue x, numberValue y with
  | some a, some b =>
    match opNamed m with
    | none => .error .unknownMnemonic
    | some o => if takesTwo o then assembleCommand o a b else .error .badLine
  | _, _ => .error .badNumber

/-- One line: the word it emits, if any (R69: one command per line). -/
def assembleLine (line : List Char) : Except AsmError (Option Word) :=
  match tokens [] line with
  | [] => .ok none
  | [.text m, .text x] => (assembleOne m x).map some
  | [.text m, .text x, .comma, .text y] => (assembleTwo m x y).map some
  | _ => .error .badLine

/-- A program's words in the order of its lines; the first bad line rejects the whole. -/
def assembleLines : List (List Char) → Except AsmError (List Word)
  | [] => .ok []
  | l :: ls =>
    match assembleLine l, assembleLines ls with
    | .ok none, .ok ws => .ok ws
    | .ok (some w), .ok ws => .ok (w :: ws)
    | .error e, _ => .error e
    | .ok _, .error e => .error e

end Sys2Proof.Machine
end

