-- ==== Sys2Proof/Safety.lean ====
section
/-! DEFINITION. What counts as a safe run of the block (R180, R203), and the invariant its registers keep. -/

namespace Sys2Proof

open Sys2Proof.Machine

/-- The block has been reset, so every rule of the spec applies to it (R201, R203). -/
abbrev Ready (s : State) : Prop := s.phase = .ready

/-- What RES and INV say together after any run (R22, R25, R152): an Invalid result shows INVALID_WORD, and any other is
a value of at most 20 bits or a grid, whose cell 35 is LAST_CELL. -/
abbrev ResultShape (s : State) : Prop :=
  (s.inv = true → s.res = invalidWord) ∧
    (s.inv = false → s.res.toNat < 2 ^ 20 ∨ s.res.getLsbD 35 = s.build.lastCell)

/-- The invariant of a block in use. -/
abbrev Sound (s : State) : Prop := Ready s ∧ ResultShape s

/-- What is fixed when the block is built is the same in both states (R29, R32). -/
abbrev SameBuild (s t : State) : Prop := t.rom = s.rom ∧ t.build = s.build

/-- A run of k steps that has not stopped, and has left a block every rule applies to (R180, R207). -/
def SafeRun (k : Nat) (s : State) : Prop :=
  ∃ t : State, Sys2Proof.core.run k s = .next t ∧ Ready t

/-- What a run shows (R207): the values its reads returned, and the final RES, STATUS.INV and STATUS.ILL. -/
def observation (s : State) : List Reading × Res × Bool × Bool := (s.readings, s.res, s.inv, s.ill)

end Sys2Proof
end

