-- ==== Sys2Proof/Certificates/Slice0/Obligations.lean ====
section
/-! DEFINITION. What the provers are asked: one definition per statement, and first the conditions of the spec that several
statements share, written from the rules' own words. -/

open Sys2Proof Sys2Proof.Machine

namespace Sys2Proof.Stated

/-! ### Conditions on a command word -/

/-- The op field names no operation (R61). -/
def reservedOp (w : Word) : Prop := (opField w).toNat = 0 ∨ 0xC ≤ (opField w).toNat

/-- Operand B breaks R63. -/
def breaksB (w : Word) : Prop :=
  ((opField w).toNat ≠ 7 ∧ (opField w).toNat ≠ 9 ∧ (bField w).toNat ≠ 0) ∨
    ((opField w).toNat = 9 ∧ 4 < (bField w).toNat)

/-- Operand A has a nonzero bit above its width (R62). -/
def breaksA (w : Word) : Prop :=
  ((opField w).toNat ∈ [1, 2, 3, 4, 0xB] ∧ 2 ^ 8 ≤ (aField w).toNat) ∨
    ((opField w).toNat = 5 ∧ 2 ^ 4 ≤ (aField w).toNat) ∨
    ((opField w).toNat ∈ [6, 7, 8] ∧ 2 ^ 7 ≤ (aField w).toNat)

/-! ### The code table -/

/-- The number of non-blacklisted bytes below r: its MarkerId, when r is not blacklisted (R80). -/
def countBelow (bl : Blacklist) (r : Byte) : Nat :=
  (List.range r.toNat).countP fun x => !blacklisted bl (BitVec.ofNat 8 x)

/-! ### Lines of the assembler -/

/-- The line is a `.word` directive (R69). -/
def isRawLine (line : List Char) : Bool :=
  match tokens [] line with
  | .text m :: _ => m == ['.', 'w', 'o', 'r', 'd']
  | _ => false

/-! ### Values of a result -/

/-- The state after a legal command that returns v (R180 (1)). -/
def withValue (s : State) (v : Nat) : State := { s with res := BitVec.ofNat 36 v, inv := false }

/-- The state after a legal command that returns INVALID (R25, R180 (2)). -/
def withInvalid (s : State) : State := { s with res := BitVec.ofNat 36 (2 ^ 36 - 1), inv := true }

/-- The width of a command's result (R22). -/
def resultWidth : Op → Nat
  | .fwd | .rev => 8
  | .crc12 => 12
  | .code => 20
  | .enc => 7
  | .syn => 3
  | .cor => 7
  | .dec => 4
  | .slice => 4
  | .grid | .mark => 36

/-- The product of two polynomials over GF(2), coefficients in the bits; the first has degree at most 7. -/
def polyMul (q : Byte) (g : BitVec 20) : BitVec 20 :=
  (List.range 8).foldl (fun acc k => if q.getLsbD k then acc ^^^ (g <<< k) else acc) 0

/-- The message byte as a polynomial: the bit fed first, x[0], is the highest coefficient (R100). -/
def messagePoly (x : Byte) : BitVec 20 := packBits 20 ((List.range 8).map fun k => x.getLsbD (7 - k))

end Sys2Proof.Stated

open Sys2Proof.Stated

/-! ### Reset, power-on, and the host's steps -/

/-- R34. Right after reset RES, INV and ILL are 0; a reset leaves the ROM as it was; before the first reset the registers
have no value, so a read of RES or STATUS faults. -/
def Obligations.ResetValues : Prop :=
  (State.reset.res = 0 ∧ State.reset.inv = false ∧ State.reset.ill = false ∧ Ready State.reset) ∧
    (∀ s t rest, s.todo = .reset :: rest → step s = .next t →
      t.res = 0 ∧ t.inv = false ∧ t.ill = false ∧ Ready t ∧ t.rom = s.rom) ∧
    (∀ s rest, s.phase = .unreset → s.todo = .readRes :: rest → step s = .fault .readBeforeReset) ∧
    ∀ s rest, s.phase = .unreset → s.todo = .readStatus :: rest → step s = .fault .readBeforeReset

/-- R200. RST is one step that clears RES, INV and ILL and leaves all else alone (the ROM too); it works in any state; a
reset after a reset has the effect of one; and no other step of the host clears ILL. -/
def Obligations.ResetIsOneStep : Prop :=
  (∀ s rest, s.todo = .reset :: rest →
    step s = .next { s with res := 0, inv := false, ill := false, phase := .ready, todo := rest }) ∧
    (∀ s rest, s.todo = .reset :: .reset :: rest →
      ∃ t u, step s = .next t ∧ step t = .next u ∧ u = { t with todo := rest }) ∧
    ∀ s t, s.ill = true → step s = .next t → t.ill = false → ∃ rest, s.todo = .reset :: rest

/-- R201. Before the first reset every read faults and so does every command word, legal or not, and every command; a
reset ends that, and no step ever brings it back. -/
def Obligations.NothingBeforeFirstReset : Prop :=
  (∀ s rest, s.phase = .unreset → (s.todo = .readRes :: rest ∨ s.todo = .readStatus :: rest) →
    step s = .fault .readBeforeReset) ∧
    (∀ s w rest, s.phase = .unreset → s.todo = .write w :: rest → step s = .fault .commandBeforeReset) ∧
    (∀ s i, s.phase = .unreset → exec i s = .fault .commandBeforeReset) ∧
    (∀ s rest, s.todo = .reset :: rest → ∃ t, step s = .next t ∧ Ready t) ∧
    ∀ s t, Ready s → step s = .next t → Ready t

/-- A block that has been reset never stops: for every sequence of host steps the run goes on, consumes one host step a
step, and changes neither the ROM nor the parameters (R180, R206). R207 ends a run after the host's last step; that the
machine also goes on for the steps beyond it, by idling, is the model's own choice (log entry 2). -/
def Obligations.RunAfterResetNeverStops : Prop :=
  ∀ (k : Nat) (s : State), Ready s →
    ∃ t : State, Sys2Proof.core.run k s = .next t ∧ Ready t ∧ SameBuild s t ∧ t.todo = s.todo.drop k

/-- Every step of a block that has been reset keeps the invariant `Sound`: it stays reset; INV = 1 goes with INVALID_WORD
in RES; and with INV = 0, RES is below 2^20 or its bit 35 is LAST_CELL (R22, R25, R152). -/
def Obligations.StepKeepsSound : Prop :=
  ∀ s t, Sound s → step s = .next t → Sound t

/-- The invariant holds right after reset, whatever the parameters. -/
def Obligations.ResetIsSound : Prop :=
  Sound State.reset ∧ ∀ rom build, Sound (State.resetWith rom build)

/-- R32. The ROM's contents never change, by any step, over any run: every lookup gives the same before and after. -/
def Obligations.RomNeverChanges : Prop :=
  ∀ (k : Nat) (s t : State), Sys2Proof.core.run k s = .next t →
    t.rom = s.rom ∧ (∀ r, romFwd t.rom r = romFwd s.rom r) ∧ ∀ i, romRev t.rom i = romRev s.rom i

/-- R26. An illegal word sets ILL; a legal word leaves it; nothing but a reset clears it, and a reset does; and ILL changes
nothing about how a well-formed command runs. -/
def Obligations.IllIsSticky : Prop :=
  (∀ s w rest, Ready s → s.todo = .write w :: rest → legal w = false → ∃ t, step s = .next t ∧ t.ill = true) ∧
    (∀ s w rest, Ready s → s.todo = .write w :: rest → legal w = true → ∃ t, step s = .next t ∧ t.ill = s.ill) ∧
    (∀ s t, s.ill = true → step s = .next t → (∀ rest, s.todo ≠ .reset :: rest) → t.ill = true) ∧
    (∀ s rest, s.todo = .reset :: rest → ∃ t, step s = .next t ∧ t.ill = false) ∧
    ∀ s i b, Ready s → i.wellFormed = true →
      ∃ t, exec i s = .next t ∧ exec i { s with ill := b } = .next { t with ill := b }

/-- R45. A CMD write executes its word once; writing the word again gives the same RES and STATUS. A read of RES gives all
36 bits, and a read of STATUS both bits, of the state they are made in; a read changes nothing of the block, and repeated
it gives the same value. -/
def Obligations.PortsReadAndWrite : Prop :=
  (∀ s w rest, s.todo = .write w :: rest → step s = execute w { s with todo := rest }) ∧
    (∀ s w rest, Ready s → s.todo = .write w :: .write w :: rest →
      ∃ t u, step s = .next t ∧ step t = .next u ∧ u.res = t.res ∧ u.inv = t.inv ∧ u.ill = t.ill) ∧
    (∀ s rest, Ready s → s.todo = .readRes :: rest →
      step s = .next { s with readings := s.readings ++ [.res s.res], todo := rest }) ∧
    (∀ s rest, Ready s → s.todo = .readStatus :: rest →
      ∃ v : Status, v.getLsbD 0 = s.inv ∧ v.getLsbD 1 = s.ill ∧
        step s = .next { s with readings := s.readings ++ [.status v], todo := rest }) ∧
    ∀ s h rest, Ready s → (h = .readRes ∨ h = .readStatus) → s.todo = h :: h :: rest →
      ∃ t u v, step s = .next t ∧ step t = .next u ∧ u.readings = s.readings ++ [v, v]

/-- The model's own choice (log entry 2): with no host step left, a step changes nothing. -/
def Obligations.IdleWhenHostIsDone : Prop :=
  ∀ s, s.todo = [] → step s = .next s

/-! ### The command cycle -/

/-- A step whose host writes a word that decodes to a command runs that command, the written word taken from the host's
sequence. -/
def Obligations.StepRunsDecodedCommand : Prop :=
  ∀ s w i rest, s.todo = .write w :: rest → decode w = .ok i → step s = exec i { s with todo := rest }

/-- The instruction that `decodeTableWord` reads is the one that runs when its word is placed where the next step takes
it, and afterwards the host's sequence is as before. -/
def Obligations.PlacedWordRunsNext : Prop :=
  ∀ s w i, decodeTableWord 32 w = some i → step (s.withFetchWord 32 w) = exec i s

/-- R183. An illegal word sets ILL and leaves RES, INV, the ROM and everything else as they were; the block goes on. -/
def Obligations.IllegalWordOnlySetsIll : Prop :=
  ∀ s w rest, Ready s → s.todo = .write w :: rest → legal w = false →
    step s = .next { s with ill := true, todo := rest } ∧ Ready { s with ill := true, todo := rest }

/-- R65. The words for which `Legal(w)` holds are those the decoder reads; a legal word runs the command of its op field on
its operands, which writes RES and INV and leaves ILL; every other word raises IllegalCommand, which sets ILL and leaves
RES and INV. -/
def Obligations.LegalWordsRun : Prop :=
  (∀ w, legal w = true →
    ∃ i, decode w = .ok i ∧ i.op.number = opField w ∧ i.operandA = aField w ∧ i.operandB = bField w ∧
      ∀ s, execute w s = exec i s ∧ (Ready s → ∃ t, exec i s = .next t ∧ t = { s with res := t.res, inv := t.inv })) ∧
    ∀ w, legal w = false → ∃ why, decode w = .error why ∧
      ∀ s, execute w s = raiseIllegal w why s ∧ (Ready s → execute w s = .next { s with ill := true })

/-- R66, which the spec derives from R61 and R65. A word matches a row of the match and mask table (SLICE's extra condition included) exactly when it decodes to a
command of that row, and no word matches two rows. -/
def Obligations.MatchMaskTableDecides : Prop :=
  (∀ (o : Op) (w : Word), o.matchesRow w = true ↔ ∃ i, decode w = .ok i ∧ i.op = o) ∧
    ∀ (o o' : Op) (w : Word), w &&& o.maskWord = o.matchWord → w &&& o'.maskWord = o'.matchWord → o = o'

/-- R182. The four reasons, in their order: each is given exactly when its condition holds and no earlier one does. -/
def Obligations.ReasonIsTheFirstThatHolds : Prop :=
  ∀ w,
    (decode w = .error .illOpcode ↔ reservedOp w) ∧
    (decode w = .error .illRsv ↔ ¬ reservedOp w ∧ rsvField w ≠ 0) ∧
    (decode w = .error .illB ↔ ¬ reservedOp w ∧ rsvField w = 0 ∧ breaksB w) ∧
    (decode w = .error .illA ↔ ¬ reservedOp w ∧ rsvField w = 0 ∧ ¬ breaksB w ∧ breaksA w) ∧
    (legal w = true ↔ ∀ why, decode w ≠ .error why)

/-- R67. The illegal words are those with a reserved op, those with rsv ≠ 0, and those whose operand bits break R62 or R63;
the all-zero word is one; and all have the same effect. -/
def Obligations.IllegalWordsAreThese : Prop :=
  (∀ w, legal w = false ↔ reservedOp w ∨ rsvField w ≠ 0 ∨ breaksA w ∨ breaksB w) ∧
    legal 0 = false ∧
    ∀ w s, Ready s → legal w = false → execute w s = .next { s with ill := true }

/-- R180. In a block that has been reset, a word has exactly one of three outcomes: Normal (legal, a value in RES, INV = 0),
Invalid (legal, INVALID_WORD in RES, INV = 1), Illegal (ILL = 1, RES and INV unchanged); after each the block goes on. -/
def Obligations.ExactlyOneOutcome : Prop :=
  ∀ s w, Ready s →
    (legal w = true ∧ ∃ v, v < 2 ^ 36 ∧ execute w s = .next (withValue s v) ∧ execute w s ≠ .next (withInvalid s)) ∨
    (legal w = true ∧ execute w s = .next (withInvalid s) ∧ ∀ v, execute w s ≠ .next (withValue s v)) ∨
    (legal w = false ∧ execute w s = .next { s with ill := true })

/-- Decoding the word of any well-formed command gives that command back, with every operand at every value. -/
def Obligations.DecodeInvertsEncode : Prop :=
  ∀ i : Instr, i.wellFormed = true → decode (encode i) = .ok i

/-- Every word the decoder accepts is the word of the command it reads, which is well formed: no bit of a legal word is
ignored. -/
def Obligations.EncodeInvertsDecode : Prop :=
  ∀ w i, decode w = .ok i → i.wellFormed = true ∧ encode i = w

/-- Words of each unit, from the spec's encodings and examples, decode to the commands they stand for. -/
def Obligations.KnownWordsDecode : Prop :=
  decode 0x10000002 = .ok (.fwd 2) ∧ decode 0x200000E4 = .ok (.rev 228) ∧
    decode 0x300000FF = .ok (.crc12 255) ∧ decode 0x40000080 = .ok (.code 128) ∧
    decode 0x5000000B = .ok (.enc 0xB) ∧ decode 0x60000062 = .ok (.syn 0x62) ∧
    decode 0x70300062 = .ok (.cor 0x62 3) ∧ decode 0x8000007F = .ok (.dec 0x7F) ∧
    decode 0x90212345 = .ok (.slice 0x12345 2) ∧ decode 0xA000000B = .ok (.grid 0xB) ∧
    decode 0xB0000001 = .ok (.mark 1)

/-- The word `(op << 28) | (b << 20) | a` that R69 forms from an operation and its operands decodes to the command of that
operation with just those operands; every well-formed command's word is so formed; and the operands rejected are the ones
that do not fit. The lines of the assembler are the subject of `AssemblerLinesEmitTheirWords`. -/
def Obligations.CommandWordsAreFormedFromOperands : Prop :=
  (∀ o a b w, assembleCommand o a b = .ok w →
    ∃ i, decode w = .ok i ∧ i.op = o ∧ i.operandA.toNat = a ∧ i.operandB.toNat = b) ∧
    (∀ i : Instr, i.wellFormed = true →
      assembleCommand i.op i.operandA.toNat i.operandB.toNat = .ok (encode i)) ∧
    ∀ o a b e, assembleCommand o a b = .error e → 2 ^ o.aWidth ≤ a ∨ o.bMax < b

/-! ### What every command does and leaves alone -/

/-- Frame. A well-formed command of a block that has been reset completes, and leaves ILL, the ROM, the parameters, the
host's sequence and its readings as they were: it writes RES and INV only (R21, R24, R26, R32). -/
def Obligations.CommandsWriteResAndInvOnly : Prop :=
  ∀ s i, Ready s → i.wellFormed = true →
    ∃ t, exec i s = .next t ∧ t = { s with res := t.res, inv := t.inv }

/-- R24. INV becomes 1 in three cases only (FWD of a blacklisted byte, REV and MARK of an identifier above 228), and 0 in
every other; every command writes it. -/
def Obligations.InvHasThreeCauses : Prop :=
  ∀ s i, Ready s → i.wellFormed = true →
    ∃ t, exec i s = .next t ∧
      (t.inv = true ↔
        (∃ r, i = .fwd r ∧ blacklisted s.rom.blacklist r = true) ∨
        (∃ k, i = .rev k ∧ 228 < k.toNat) ∨ ∃ k, i = .mark k ∧ 228 < k.toNat)

/-- R22. A result that is not INVALID stands zero-extended in RES: it is below 2 to the width the rule lists for the
command. -/
def Obligations.ResultsAreZeroExtended : Prop :=
  ∀ s i, Ready s → i.wellFormed = true →
    ∃ t, exec i s = .next t ∧ (t.inv = false → t.res.toNat < 2 ^ resultWidth i.op)

/-- R2. Two blocks built alike give a command the same result, whatever their registers hold: no command reads RES, STATUS,
or anything of the host's. -/
def Obligations.CommandsReadOnlyOperandsAndRom : Prop :=
  ∀ s s' i, Ready s → Ready s' → SameBuild s s' → i.wellFormed = true →
    ∃ t t', exec i s = .next t ∧ exec i s' = .next t' ∧ t'.res = t.res ∧ t'.inv = t.inv

/-- INVALID_WORD in RES is enough to recognise an Invalid result of FWD, REV or MARK, whatever the parameters: no valid
result of these three has that value (R25, R205 (b); D7). -/
def Obligations.InvalidWordMeansInvalid : Prop :=
  ∀ s x i, Ready s → (i = .fwd x ∨ i = .rev x ∨ i = .mark x) →
    ∃ t, exec i s = .next t ∧ (t.res = BitVec.ofNat 36 (2 ^ 36 - 1) ↔ t.inv = true)

/-! ### CT: the code table -/

/-- R6. BLACKLIST has exactly 27 members, among them 2, 3, 8, 9 and 255 and not 0; and every such set of bytes is a value
of the parameter. -/
def Obligations.BlacklistIsAnySetOfTwentySeven : Prop :=
  (∀ bl : Blacklist, (List.range 256).countP (fun x => blacklisted bl (BitVec.ofNat 8 x)) = 27 ∧
    (∀ r ∈ [2, 3, 8, 9, 255], blacklisted bl r = true) ∧ blacklisted bl 0 = false) ∧
    ∀ p : Byte → Bool, (List.range 256).countP (fun x => p (BitVec.ofNat 8 x)) = 27 →
      (∀ r ∈ [2, 3, 8, 9, 255], p r = true) → p 0 = false → ∃ bl : Blacklist, ∀ r, blacklisted bl r = p r

/-- R83. FWD of a blacklisted byte returns INVALID; of any other byte, the number of non-blacklisted bytes below it, which
is at most 228; with the encoding and the corner cases of the rule. -/
def Obligations.FwdReturnsThePosition : Prop :=
  ∀ s r, Ready s →
    (blacklisted s.rom.blacklist r = true → exec (.fwd r) s = .next (withInvalid s)) ∧
    (blacklisted s.rom.blacklist r = false →
      exec (.fwd r) s = .next (withValue s (countBelow s.rom.blacklist r)) ∧ countBelow s.rom.blacklist r ≤ 228) ∧
    exec (.fwd 0) s = .next (withValue s 0) ∧
    (r ∈ [2, 3, 8, 9, 255] → exec (.fwd r) s = .next (withInvalid s)) ∧
    decode (0x10000000 ||| r.setWidth 32) = .ok (.fwd r)

/-- R84. REV of an identifier above 228 returns INVALID; of any other, the one non-blacklisted byte whose forward lookup it
is; with the encoding and the corner cases of the rule. -/
def Obligations.RevReturnsTheByteAtThePosition : Prop :=
  ∀ s i, Ready s →
    (228 < i.toNat → exec (.rev i) s = .next (withInvalid s)) ∧
    (i.toNat ≤ 228 → ∃ r : Byte, blacklisted s.rom.blacklist r = false ∧ countBelow s.rom.blacklist r = i.toNat ∧
      exec (.rev i) s = .next (withValue s r.toNat)) ∧
    exec (.rev 0) s = .next (withValue s 0) ∧
    (∃ r : Byte, r.toNat ≤ 254 ∧ exec (.rev 228) s = .next (withValue s r.toNat) ∧
      ∀ x : Byte, blacklisted s.rom.blacklist x = false → x.toNat ≤ r.toNat) ∧
    decode (0x20000000 ||| i.setWidth 32) = .ok (.rev i)

/-- R81, which the spec derives from R80 and R6. REV_ROM[i] is the unique non-blacklisted byte r with FWD_ROM[r] = i, and REV_ROM is strictly increasing. -/
def Obligations.ReverseTableIsTheInverse : Prop :=
  ∀ rom : Rom,
    (∀ i : Byte, i.toNat ≤ 228 → ∃ r, romRev rom i = .ok r ∧
      (blacklisted rom.blacklist r = false ∧ romFwd rom r = some i) ∧
      ∀ r', blacklisted rom.blacklist r' = false → romFwd rom r' = some i → r' = r) ∧
    ∀ (i j r r' : Byte), i.toNat < j.toNat → romRev rom i = .ok r → romRev rom j = .ok r' → r.toNat < r'.toNat

/-- R82, which the spec derives from R80 and R81. For every MarkerId, FWD_ROM[REV_ROM[i]] = i; for every byte not in BLACKLIST, REV_ROM[FWD_ROM[r]] = r. -/
def Obligations.LookupsAreInverse : Prop :=
  ∀ rom : Rom,
    (∀ i : Byte, i.toNat ≤ 228 → ∃ r, romRev rom i = .ok r ∧ romFwd rom r = some i) ∧
    ∀ r : Byte, blacklisted rom.blacklist r = false → ∃ i, romFwd rom r = some i ∧ romRev rom i = .ok r

/-- R42. RomRev is defined for the indices 0 to 228 and faults for every other; REV and MARK of such an index return INVALID,
and no command and no step of the machine ever ends in that fault. -/
def Obligations.RomRevIsNeverMisused : Prop :=
  (∀ rom (i : Byte), (i.toNat ≤ 228 → ∃ r, romRev rom i = .ok r) ∧
    (228 < i.toNat → romRev rom i = .error .romRevIndex)) ∧
    (∀ s (i : Byte), Ready s → 228 < i.toNat →
      exec (.rev i) s = .next (withInvalid s) ∧ exec (.mark i) s = .next (withInvalid s)) ∧
    (∀ i s, exec i s ≠ .fault .romRevIndex) ∧ ∀ s, step s ≠ .fault .romRevIndex

/-- R86, which the spec derives from R80, R83, R84 and R6. The values of FWD and REV that follow from the listed members alone, for every BLACKLIST. -/
def Obligations.ForcedLookupValues : Prop :=
  ∀ s, Ready s →
    exec (.fwd 0) s = .next (withValue s 0) ∧ exec (.fwd 2) s = .next (withInvalid s) ∧
    exec (.fwd 3) s = .next (withInvalid s) ∧ exec (.fwd 8) s = .next (withInvalid s) ∧
    exec (.fwd 9) s = .next (withInvalid s) ∧ exec (.fwd 255) s = .next (withInvalid s) ∧
    exec (.rev 0) s = .next (withValue s 0) ∧ exec (.rev 229) s = .next (withInvalid s) ∧
    exec (.rev 255) s = .next (withInvalid s)

/-- R87, which the spec derives from R80 and R81 under D19. The values of FWD and REV under the optional reading BL_LOW, which is a hypothesis here: the model does not adopt
it. -/
def Obligations.LookupValuesUnderBlLow : Prop :=
  ∀ s, Ready s →
    (∀ r : Byte, r.toNat ≤ 9 → (blacklisted s.rom.blacklist r = true ↔ r ∈ [2, 3, 8, 9])) →
    exec (.fwd 1) s = .next (withValue s 1) ∧ exec (.fwd 4) s = .next (withValue s 2) ∧
    exec (.fwd 5) s = .next (withValue s 3) ∧ exec (.fwd 6) s = .next (withValue s 4) ∧
    exec (.fwd 7) s = .next (withValue s 5) ∧ exec (.rev 1) s = .next (withValue s 1) ∧
    exec (.rev 2) s = .next (withValue s 4) ∧ exec (.rev 3) s = .next (withValue s 5) ∧
    exec (.rev 4) s = .next (withValue s 6) ∧ exec (.rev 5) s = .next (withValue s 7)

/-! ### CK: the checksum -/

/-- R100. The checksum is the remainder of the message byte (r + 1) mod 256, fed least significant bit first, times x^12,
on division by g(x) = x^12 + x^11 + x^3 + x^2 + x + 1 (0x180F); it is read out reflected or not by CRC12_REFOUT. -/
def Obligations.ChecksumIsTheRemainder : Prop :=
  ∀ (refout : Bool) (r : Byte), ∃ (q : Byte) (rem : Checksum),
    messagePoly (r + 1) <<< 12 = polyMul q 0x180F ^^^ rem.setWidth 20 ∧
    checksum12 refout r = if refout then bitrev12 rem else rem

/-- The setting CRC12_REFOUT = false gives what R101's left-shifting register form gives, for every byte. -/
def Obligations.RegisterFormsAgree : Prop :=
  ∀ r : Byte, checksum12 false r = crc12ShiftLeft (r + 1) ∧ checksum12 true r = bitrev12 (crc12ShiftLeft (r + 1))

/-- R103, which the spec derives from R100 and R101. checksum12(255) = 0; checksum12 is linear in the message byte; checksum12 is injective; under both settings. -/
def Obligations.ChecksumIsLinearAndInjective : Prop :=
  ∀ refout : Bool,
    checksum12 refout 255 = 0 ∧
    (∀ r1 r2 : Byte, checksum12 refout (((r1 + 1) ^^^ (r2 + 1)) - 1) = checksum12 refout r1 ^^^ checksum12 refout r2) ∧
    ∀ r1 r2 : Byte, checksum12 refout r1 = checksum12 refout r2 → r1 = r2

/-- R104. CRC12 returns the checksum of its byte; with the encoding, the corner cases and the example of the rule. -/
def Obligations.Crc12ReturnsTheChecksum : Prop :=
  ∀ s r, Ready s →
    exec (.crc12 r) s = .next (withValue s (checksum12 s.build.crc12Refout r).toNat) ∧
    (checksum12 s.build.crc12Refout r).toNat ≤ 0xFFF ∧
    exec (.crc12 255) s = .next (withValue s 0) ∧
    exec (.crc12 127) s = .next (withValue s (if s.build.crc12Refout then 0xF01 else 0x80F)) ∧
    exec (.crc12 0) s = .next (withValue s (if s.build.crc12Refout then 0xA0B else 0xD05)) ∧
    decode (0x30000000 ||| r.setWidth 32) = .ok (.crc12 r)

/-- R105. CODE returns the checksum times 256 plus the byte, for every byte, blacklisted or not; with the encoding, the
corner cases and the example of the rule. -/
def Obligations.CodeReturnsTheMarkerCode : Prop :=
  ∀ s r, Ready s →
    exec (.code r) s = .next (withValue s ((checksum12 s.build.crc12Refout r).toNat * 256 + r.toNat)) ∧
    (checksum12 s.build.crc12Refout r).toNat * 256 + r.toNat < 2 ^ 20 ∧
    exec (.code 255) s = .next (withValue s 0x000FF) ∧
    exec (.code 0) s = .next (withValue s (if s.build.crc12Refout then 0xA0B00 else 0xD0500)) ∧
    decode (0x40000000 ||| r.setWidth 32) = .ok (.code r)

/-! ### HC: the Hamming code -/

/-- ENC returns the codeword of R123: parity bits at positions 0, 1 and 3, data bits at 2, 4, 5 and 6, p0 being the
nibble's bit 3. -/
def Obligations.EncReturnsTheCodeword : Prop :=
  ∀ s n, Ready s →
    ∃ c : Codeword, exec (.enc n) s = .next (withValue s c.toNat) ∧
      c.getLsbD 0 = (n.getLsbD 3 ^^ n.getLsbD 2 ^^ n.getLsbD 0) ∧
      c.getLsbD 1 = (n.getLsbD 3 ^^ n.getLsbD 1 ^^ n.getLsbD 0) ∧
      c.getLsbD 2 = n.getLsbD 3 ∧
      c.getLsbD 3 = (n.getLsbD 2 ^^ n.getLsbD 1 ^^ n.getLsbD 0) ∧
      c.getLsbD 4 = n.getLsbD 2 ∧ c.getLsbD 5 = n.getLsbD 1 ∧ c.getLsbD 6 = n.getLsbD 0

/-- R132, which the spec derives from R120 and R123. The encoder's table, and the least distance between two of its codewords: any two differ in at least three
bits, and some two in exactly three. -/
def Obligations.CodewordsOfTheTable : Prop :=
  (List.range 16).map (fun n => (hamEncode (BitVec.ofNat 4 n)).toNat) =
      [0x00, 0x4B, 0x2A, 0x61, 0x19, 0x52, 0x33, 0x78, 0x07, 0x4C, 0x2D, 0x66, 0x1E, 0x55, 0x34, 0x7F] ∧
    (∀ n n' : Nibble, n ≠ n' →
      3 ≤ (List.range 7).countP fun i => (hamEncode n).getLsbD i != (hamEncode n').getLsbD i) ∧
    ∃ n n' : Nibble, ((List.range 7).countP fun i => (hamEncode n).getLsbD i != (hamEncode n').getLsbD i) = 3

/-- SYN returns R124's three parity sums; and so, as R128 and R133 derive from R123 and R124, 0 for every codeword and j + 1
for a codeword with bit j flipped. -/
def Obligations.SynReturnsTheSyndrome : Prop :=
  ∀ s c, Ready s →
    (∃ v : Syndrome, exec (.syn c) s = .next (withValue s v.toNat) ∧
      v.getLsbD 0 = (c.getLsbD 0 ^^ c.getLsbD 2 ^^ c.getLsbD 4 ^^ c.getLsbD 6) ∧
      v.getLsbD 1 = (c.getLsbD 1 ^^ c.getLsbD 2 ^^ c.getLsbD 5 ^^ c.getLsbD 6) ∧
      v.getLsbD 2 = (c.getLsbD 3 ^^ c.getLsbD 4 ^^ c.getLsbD 5 ^^ c.getLsbD 6)) ∧
    (∀ n, c = hamEncode n → exec (.syn c) s = .next (withValue s 0)) ∧
    ∀ n j, j < 7 → c = hamEncode n ^^^ (1#7 <<< j) → exec (.syn c) s = .next (withValue s (j + 1))

/-- COR returns its word with bit v − 1 flipped, or unchanged for v = 0, for every word and every v (R125); COR again with
the same v gives the word back. -/
def Obligations.CorFlipsTheNamedBit : Prop :=
  ∀ s c v, Ready s →
    ∃ k : Codeword, exec (.cor c v) s = .next (withValue s k.toNat) ∧
      (∀ i, i < 7 → k.getLsbD i = (c.getLsbD i ^^ decide (v.toNat = i + 1))) ∧
      exec (.cor k v) s = .next (withValue s c.toNat)

/-- DEC returns the data bits of the corrected word (R126), and so undoes any single error (R130). What follows from R123
to R126, though no rule states it: the nibble's codeword differs from the received word in at most one bit, for every
received word, and two errors always make a wrong nibble, with INV = 0, where R131 says the nibble can be wrong. The value
of DEC 0x65 is the one R131 derives. -/
def Obligations.DecReturnsTheNearestNibble : Prop :=
  ∀ s c, Ready s →
    (∀ k, k = hamCorrect c (hamSyndrome c) → exec (.dec c) s = .next (withValue s
      (8 * (k.getLsbD 2).toNat + 4 * (k.getLsbD 4).toNat + 2 * (k.getLsbD 5).toNat + (k.getLsbD 6).toNat))) ∧
    (∃ n : Nibble, exec (.dec c) s = .next (withValue s n.toNat) ∧
      ((List.range 7).countP fun i => (hamEncode n).getLsbD i != c.getLsbD i) ≤ 1) ∧
    (∀ n, c = hamEncode n → exec (.dec c) s = .next (withValue s n.toNat)) ∧
    (∀ n j, j < 7 → c = hamEncode n ^^^ (1#7 <<< j) → exec (.dec c) s = .next (withValue s n.toNat)) ∧
    (∀ n j k, j < 7 → k < 7 → j ≠ k → c = hamEncode n ^^^ (1#7 <<< j) ^^^ (1#7 <<< k) →
      ∃ n' : Nibble, n' ≠ n ∧ exec (.dec c) s = .next (withValue s n'.toNat)) ∧
    exec (.dec 0x62) s = .next (withValue s 0xB) ∧ exec (.dec 0x65) s = .next (withValue s 3)

/-- ENC, then DEC of the result with any one bit flipped, gives the nibble back with INV = 0. -/
def Obligations.EncThenDecCorrectsOneError : Prop :=
  ∀ s n j, Ready s → j < 7 →
    ∃ t u, exec (.enc n) s = .next t ∧ exec (.dec (t.res.setWidth 7 ^^^ (1#7 <<< j))) t = .next u ∧
      u = withValue s n.toNat

/-! ### GP: slices and grids -/

/-- R157. SLICE returns block j of its marker code, the j-th digit in base 16, for j in 0 to 4; a word with b in 5 to 7 is
illegal; with the encoding, the corner cases and the example of the rule. -/
def Obligations.SliceReturnsTheBlock : Prop :=
  ∀ s m (j : BitVec 3), Ready s →
    (j.toNat ≤ 4 → exec (.slice m j) s = .next (withValue s (m.toNat / 16 ^ j.toNat % 16)) ∧
      decode (0x90000000 ||| (j.setWidth 32 <<< 20) ||| m.setWidth 32) = .ok (.slice m j)) ∧
    (4 < j.toNat → legal (0x90000000 ||| (j.setWidth 32 <<< 20) ||| m.setWidth 32) = false) ∧
    exec (.slice 0x12345 2) s = .next (withValue s 3)

/-- The model's own choice (log entry 9): a SLICE term whose block index no legal word carries acts as the illegal word it
stands for. -/
def Obligations.IllFormedSliceIsIllegal : Prop :=
  ∀ s m (j : BitVec 3), Ready s → 4 < j.toNat → exec (.slice m j) s = .next { s with ill := true }

/-- GRID returns the grid of any marker code: RES bit 5·i + j is bit i of the codeword of block j, and bit 35 is LAST_CELL
(R153); with R158's encoding, corner cases and example. -/
def Obligations.GridReturnsThePackedCodewords : Prop :=
  ∀ s m, Ready s →
    (∃ g : Res, exec (.grid m) s = .next (withValue s g.toNat) ∧
      (∀ i j, i < 7 → j < 5 → g.getLsbD (5 * i + j) = (hamEncode (m.extractLsb' (4 * j) 4)).getLsbD i) ∧
      g.getLsbD 35 = s.build.lastCell) ∧
    exec (.grid 0) s = .next (withValue s (s.build.lastCell.toNat * 2 ^ 35)) ∧
    exec (.grid 0xFFFFF) s = .next (withValue s (0x7FFFFFFFF + s.build.lastCell.toNat * 2 ^ 35)) ∧
    exec (.grid 0xB) s = .next (withValue s (0x042000420 + s.build.lastCell.toNat * 2 ^ 35)) ∧
    decode (0xA0000000 ||| m.setWidth 32) = .ok (.grid m)

/-- R155, which the spec derives from R151 and R153. The cell map: cell c = 6·row + col below 35 of a grid holds bit c / 5 of codeword c % 5, and cell 35, which is
grid[5][5], holds LAST_CELL. -/
def Obligations.CellMapOfAGrid : Prop :=
  ∀ (lastCell : Bool) (m : MarkerCode) (row col : Nat), row < 6 → col < 6 →
    (6 * row + col < 35 → gridCell (gridPack lastCell m) row col =
      (hamEncode (block m ((6 * row + col) % 5))).getLsbD ((6 * row + col) / 5)) ∧
    (6 * row + col = 35 → gridCell (gridPack lastCell m) row col = lastCell)

/-- R159. MARK of an identifier above 228 returns INVALID; of any other it leaves the very state that REV, CODE of its
result and GRID of that result leave, in one step; with the encoding and the example of the rule. -/
def Obligations.MarkIsRevThenCodeThenGrid : Prop :=
  ∀ s i, Ready s →
    (228 < i.toNat → exec (.mark i) s = .next (withInvalid s)) ∧
    (i.toNat ≤ 228 → ∃ t1 t2 t3,
      exec (.rev i) s = .next t1 ∧ exec (.code (t1.res.setWidth 8)) t1 = .next t2 ∧
      exec (.grid (t2.res.setWidth 20)) t2 = .next t3 ∧ exec (.mark i) s = .next t3 ∧ t3.inv = false) ∧
    (s.build.crc12Refout = true → s.build.lastCell = false → exec (.mark 0) s = .next (withValue s 0x128085090)) ∧
    decode (0xB0000000 ||| i.setWidth 32) = .ok (.mark i)

/-- A grid survives one wrong cell in each block: gather any block's codeword from the damaged grid by the cell map of R155,
and DEC, in any block that has been reset, gives the block SLICE gives of the marker code (R130, R155, R160). -/
def Obligations.GridSurvivesOneErrorPerBlock : Prop :=
  ∀ (s u : State) (m : MarkerCode) (errors : Res) (j : BitVec 3), Ready s → Ready u → j.toNat ≤ 4 →
    (∀ i k, i < 7 → k < 7 → errors.getLsbD (5 * i + j.toNat) = true → errors.getLsbD (5 * k + j.toNat) = true → i = k) →
    ∃ t, exec (.grid m) s = .next t ∧
      exec (.dec (gatherCodeword (t.res ^^^ errors) j.toNat)) u = exec (.slice m j) u ∧
      exec (.slice m j) u = .next (withValue u (block m j.toNat).toNat)

/-! ### The assembler's lines -/

/-- Lines of the assembler (R69). The lines other than `.word` emit exactly the legal words. Such a line emits the word of
the operation its mnemonic names, with the operands it writes: one, or two for COR and SLICE. `.word` emits its value
unchanged, legal or not, and every word can be so written. An operand or a value that does not fit is rejected. How a line
falls into mnemonic and operands is the model's choice where R69 is silent (log entry 16). -/
def Obligations.AssemblerLinesEmitTheirWords : Prop :=
  (∀ w, legal w = true ↔ ∃ line, isRawLine line = false ∧ assembleLine line = .ok (some w)) ∧
    (∀ line w, assembleLine line = .ok (some w) → isRawLine line = false →
      ∃ i m x a, decode w = .ok i ∧ opNamed m = some i.op ∧ numberValue x = some a ∧ i.operandA.toNat = a ∧
        ((takesTwo i.op = false ∧ i.operandB = 0 ∧ tokens [] line = [.text m, .text x]) ∨
          (takesTwo i.op = true ∧ ∃ y, numberValue y = some i.operandB.toNat ∧
            tokens [] line = [.text m, .text x, .comma, .text y]))) ∧
    (∀ line x v, tokens [] line = [.text ['.', 'w', 'o', 'r', 'd'], .text x] → numberValue x = some v →
      (v < 2 ^ 32 → assembleLine line = .ok (some (BitVec.ofNat 32 v))) ∧
      (2 ^ 32 ≤ v → assembleLine line = .error .doesNotFit)) ∧
    (∀ w : Word, ∃ line, isRawLine line = true ∧ assembleLine line = .ok (some w)) ∧
    (∀ line m x o a, tokens [] line = [.text m, .text x] → opNamed m = some o → takesTwo o = false →
      numberValue x = some a → 2 ^ o.aWidth ≤ a → assembleLine line = .error .doesNotFit) ∧
    ∀ line m x y o a b, tokens [] line = [.text m, .text x, .comma, .text y] → opNamed m = some o →
      takesTwo o = true → numberValue x = some a → numberValue y = some b → (2 ^ o.aWidth ≤ a ∨ o.bMax < b) →
      assembleLine line = .error .doesNotFit
end

