-- ==== Sys2Proof/Laws/State.lean ====
section
/-! SUPPORT. What each update of the state does to each field; all true by unfolding, so that no later proof unfolds an
update. -/

namespace Sys2Proof.Machine

variable (s : State) (r : Result) (v : Reading) (l : List HostStep)

@[simp] theorem State.writeResult_res : (s.writeResult r).res = r.word := rfl
@[simp] theorem State.writeResult_inv : (s.writeResult r).inv = r.inv := rfl
@[simp] theorem State.writeResult_ill : (s.writeResult r).ill = s.ill := rfl
@[simp] theorem State.writeResult_phase : (s.writeResult r).phase = s.phase := rfl
@[simp] theorem State.writeResult_rom : (s.writeResult r).rom = s.rom := rfl
@[simp] theorem State.writeResult_build : (s.writeResult r).build = s.build := rfl
@[simp] theorem State.writeResult_todo : (s.writeResult r).todo = s.todo := rfl
@[simp] theorem State.writeResult_readings : (s.writeResult r).readings = s.readings := rfl

@[simp] theorem State.setIll_res : s.setIll.res = s.res := rfl
@[simp] theorem State.setIll_inv : s.setIll.inv = s.inv := rfl
@[simp] theorem State.setIll_ill : s.setIll.ill = true := rfl
@[simp] theorem State.setIll_phase : s.setIll.phase = s.phase := rfl
@[simp] theorem State.setIll_rom : s.setIll.rom = s.rom := rfl
@[simp] theorem State.setIll_build : s.setIll.build = s.build := rfl
@[simp] theorem State.setIll_todo : s.setIll.todo = s.todo := rfl
@[simp] theorem State.setIll_readings : s.setIll.readings = s.readings := rfl

@[simp] theorem State.clear_res : s.clear.res = 0 := rfl
@[simp] theorem State.clear_inv : s.clear.inv = false := rfl
@[simp] theorem State.clear_ill : s.clear.ill = false := rfl
@[simp] theorem State.clear_phase : s.clear.phase = .ready := rfl
@[simp] theorem State.clear_rom : s.clear.rom = s.rom := rfl
@[simp] theorem State.clear_build : s.clear.build = s.build := rfl
@[simp] theorem State.clear_todo : s.clear.todo = s.todo := rfl
@[simp] theorem State.clear_readings : s.clear.readings = s.readings := rfl

@[simp] theorem State.record_res : (s.record v).res = s.res := rfl
@[simp] theorem State.record_inv : (s.record v).inv = s.inv := rfl
@[simp] theorem State.record_ill : (s.record v).ill = s.ill := rfl
@[simp] theorem State.record_phase : (s.record v).phase = s.phase := rfl
@[simp] theorem State.record_rom : (s.record v).rom = s.rom := rfl
@[simp] theorem State.record_build : (s.record v).build = s.build := rfl
@[simp] theorem State.record_todo : (s.record v).todo = s.todo := rfl
@[simp] theorem State.record_readings : (s.record v).readings = s.readings ++ [v] := rfl

@[simp] theorem State.withTodo_res : (s.withTodo l).res = s.res := rfl
@[simp] theorem State.withTodo_inv : (s.withTodo l).inv = s.inv := rfl
@[simp] theorem State.withTodo_ill : (s.withTodo l).ill = s.ill := rfl
@[simp] theorem State.withTodo_phase : (s.withTodo l).phase = s.phase := rfl
@[simp] theorem State.withTodo_rom : (s.withTodo l).rom = s.rom := rfl
@[simp] theorem State.withTodo_build : (s.withTodo l).build = s.build := rfl
@[simp] theorem State.withTodo_todo : (s.withTodo l).todo = l := rfl
@[simp] theorem State.withTodo_readings : (s.withTodo l).readings = s.readings := rfl

end Sys2Proof.Machine
end

