-- ==== Sys2Proof/Laws/Ops.lean ====
section
/-! SUPPORT. One lemma per shared operation that says everything it can do, and the bit lists' values. -/

namespace Sys2Proof.Machine

variable {s t : State}

/-! ### Registers and ports -/

@[simp] theorem complete_of_ready (r : Result) (h : s.phase = .ready) : complete r s = .next (s.writeResult r) := by
  simp [complete, h]

@[simp] theorem complete_of_unreset (r : Result) (h : s.phase = .unreset) :
    complete r s = .fault .commandBeforeReset := by
  simp [complete, h]

/-- All a legal command's end can do when it goes on. -/
theorem complete_eq_next {r : Result} : complete r s = .next t ↔ s.phase = .ready ∧ t = s.writeResult r := by
  cases h : s.phase <;> simp [complete, h, eq_comm]

@[simp] theorem raiseIllegal_of_ready (w : Word) (why : Reason) (h : s.phase = .ready) :
    raiseIllegal w why s = .next s.setIll := by
  simp [raiseIllegal, h]

@[simp] theorem raiseIllegal_of_unreset (w : Word) (why : Reason) (h : s.phase = .unreset) :
    raiseIllegal w why s = .fault .commandBeforeReset := by
  simp [raiseIllegal, h]

/-- All an illegal command can do when the block goes on. -/
theorem raiseIllegal_eq_next {w : Word} {why : Reason} :
    raiseIllegal w why s = .next t ↔ s.phase = .ready ∧ t = s.setIll := by
  cases h : s.phase <;> simp [raiseIllegal, h, eq_comm]

/-- All a read of RES can do when the machine goes on. -/
theorem readRes_eq_next : readRes s = .next t ↔ s.phase = .ready ∧ t = s.record (.res s.res) := by
  cases h : s.phase <;> simp [readRes, h, eq_comm]

/-- All a read of STATUS can do when the machine goes on. -/
theorem readStatus_eq_next :
    readStatus s = .next t ↔ s.phase = .ready ∧ t = s.record (.status (statusWord s.inv s.ill)) := by
  cases h : s.phase <;> simp [readStatus, h, eq_comm]

/-- All a reset can do. -/
theorem assertReset_eq_next : assertReset s = .next t ↔ t = s.clear := by
  simp [assertReset, eq_comm]

@[simp] theorem nextHostStep_nil (h : s.todo = []) : nextHostStep s = none := by
  simp [nextHostStep, h]

@[simp] theorem nextHostStep_cons {h : HostStep} {rest : List HostStep} (e : s.todo = h :: rest) :
    nextHostStep s = some (h, s.withTodo rest) := by
  simp [nextHostStep, e]

/-! ### The ROM -/

/-- All a read of the reverse ROM can give: an entry, exactly for the indices 0 to 228 (R42). -/
theorem romRev_eq_ok {rom : Rom} {i r : Byte} :
    romRev rom i = .ok r ↔ ∃ h : i.toNat < 229, revEntry rom ⟨i.toNat, h⟩ = r := by
  unfold romRev
  split <;> simp_all

/-- A read of the reverse ROM beyond 228 is a fault (R42). -/
theorem romRev_eq_error {rom : Rom} {i : Byte} {f : Fault} :
    romRev rom i = .error f ↔ 229 ≤ i.toNat ∧ f = .romRevIndex := by
  unfold romRev
  split <;> simp_all [eq_comm]

/-- All a read of the forward ROM can give: none exactly for a blacklisted byte (R80). -/
theorem romFwd_eq_none {rom : Rom} {r : Byte} : romFwd rom r = none ↔ blacklisted rom.blacklist r = true := by
  unfold romFwd
  split <;> simp_all

/-! ### Bit lists -/

theorem bitsToNat_lt (bits : List Bool) : bitsToNat bits < 2 ^ bits.length := by
  induction bits with
  | nil => simp [bitsToNat]
  | cons b bs ih =>
    have hb := b.toNat_le
    simp only [bitsToNat, List.length_cons, pow_succ]
    omega

/-- Bit i of a listed number is entry i of the list (R11). -/
theorem testBit_bitsToNat (bits : List Bool) (i : Nat) : (bitsToNat bits).testBit i = bits.getD i false := by
  induction bits generalizing i with
  | nil => simp [bitsToNat]
  | cons b bs ih =>
    cases i with
    | zero => cases b <;> simp [bitsToNat]
    | succ k =>
      have h : (b.toNat + 2 * bitsToNat bs) / 2 = bitsToNat bs := by
        cases b <;> simp only [Bool.toNat_true, Bool.toNat_false] <;> omega
      simp only [bitsToNat, Nat.testBit_add_one, h, ih, List.getD_cons_succ]

/-- Bit i of a packed value is entry i of the list. -/
@[simp] theorem getLsbD_packBits (w : Nat) (bits : List Bool) (i : Nat) :
    (packBits w bits).getLsbD i = (decide (i < w) && bits.getD i false) := by
  simp [packBits, BitVec.getLsbD_ofNat, testBit_bitsToNat]

end Sys2Proof.Machine
end

