-- ==== Sys2Proof/Laws/PerInstr.lean ====
section
/-! SUPPORT. The family `EncodedFields`: the fields a command's word holds (R60, R61, R64). -/

namespace Sys2Proof

theorem opField_packWord (op : BitVec 4) (b : BitVec 3) (a : BitVec 20) : opField (packWord op b a) = op := by
  ext k hk
  simp only [opField, packWord, BitVec.getElem_extractLsb', BitVec.getLsbD_append]
  have h1 : ¬ 28 + k < 20 := by omega
  have h2 : ¬ 28 + k - 20 < 3 := by omega
  have h3 : ¬ 28 + k - 20 - 3 < 5 := by omega
  have h4 : 28 + k - 20 - 3 - 5 = k := by omega
  simp [h1, h2, h3, h4, hk]

theorem rsvField_packWord (op : BitVec 4) (b : BitVec 3) (a : BitVec 20) : rsvField (packWord op b a) = 0 := by
  ext k hk
  simp only [rsvField, packWord, BitVec.getElem_extractLsb', BitVec.getLsbD_append]
  have h1 : ¬ 23 + k < 20 := by omega
  have h2 : ¬ 23 + k - 20 < 3 := by omega
  have h3 : 23 + k - 20 - 3 < 5 := by omega
  simp [h1, h2, h3]

namespace Laws.EncodedFields

/-- The op field of a command's word is its operation's number, and the reserved field is 0. -/
def Statement (i : Instr) : Prop := opField (encode i) = i.op.number ∧ rsvField (encode i) = 0

theorem fwd (r : Byte) : Statement (.fwd r) := ⟨opField_packWord _ _ _, rsvField_packWord _ _ _⟩
theorem rev (i : Byte) : Statement (.rev i) := ⟨opField_packWord _ _ _, rsvField_packWord _ _ _⟩
theorem crc12 (r : Byte) : Statement (.crc12 r) := ⟨opField_packWord _ _ _, rsvField_packWord _ _ _⟩
theorem code (r : Byte) : Statement (.code r) := ⟨opField_packWord _ _ _, rsvField_packWord _ _ _⟩
theorem enc (n : Nibble) : Statement (.enc n) := ⟨opField_packWord _ _ _, rsvField_packWord _ _ _⟩
theorem syn (c : Codeword) : Statement (.syn c) := ⟨opField_packWord _ _ _, rsvField_packWord _ _ _⟩
theorem cor (c : Codeword) (v : Syndrome) : Statement (.cor c v) := ⟨opField_packWord _ _ _, rsvField_packWord _ _ _⟩
theorem dec (c : Codeword) : Statement (.dec c) := ⟨opField_packWord _ _ _, rsvField_packWord _ _ _⟩
theorem slice (m : MarkerCode) (j : BitVec 3) : Statement (.slice m j) :=
  ⟨opField_packWord _ _ _, rsvField_packWord _ _ _⟩
theorem grid (m : MarkerCode) : Statement (.grid m) := ⟨opField_packWord _ _ _, rsvField_packWord _ _ _⟩
theorem mark (i : Byte) : Statement (.mark i) := ⟨opField_packWord _ _ _, rsvField_packWord _ _ _⟩

end Laws.EncodedFields

end Sys2Proof
end

