-- ==== Sys2Proof/Laws/Step.lean ====
section
/-! SUPPORT. What the command cycle and one step of the machine can do. -/

namespace Sys2Proof.Machine

variable {s : State}

theorem execute_of_ok {w : Word} {i : Instr} (h : decode w = .ok i) : execute w s = exec i s := by
  simp [execute, h]

theorem execute_of_error {w : Word} {why : Reason} (h : decode w = .error why) :
    execute w s = raiseIllegal w why s := by
  simp [execute, h]

/-- A step with a host step to take is that host step, in the state it is taken from the sequence. -/
theorem step_of_cons {h : HostStep} {rest : List HostStep} (e : s.todo = h :: rest) :
    step s = takeHostStep h (s.withTodo rest) := by
  simp [step, runStep, nextHostStep_cons e]

/-- Widening a result to RES keeps its number (R22). -/
@[simp] theorem toNat_zext36 {n : Nat} (v : BitVec n) (h : n ≤ 36) : (zext36 v).toNat = v.toNat := by
  have hv := v.isLt
  have hn : 2 ^ n ≤ 2 ^ 36 := Nat.pow_le_pow_right (by decide) h
  simp only [zext36, BitVec.toNat_setWidth]
  exact Nat.mod_eq_of_lt (by omega)

end Sys2Proof.Machine
end

