-- ==== Sys2Proof/Tests/Slice0.lean ====
section
/-! SUPPORT. Tests of the model, with their expected values from spec/95_test_vectors.md (E, V and P below) or from the
spec's encodings; and one witness for the hypotheses of every statement that has any. -/

namespace Sys2Proof.Tests

open Sys2Proof Sys2Proof.Machine Sys2Proof.Stated

/-! ### Helpers -/

/-- A block just reset, built with a concrete BLACKLIST that meets BL_LOW and the given other parameters; its host is about
to take the given steps. -/
def block0 (refout last : Bool) (todo : List HostStep) : State :=
  (State.resetWith ⟨Config.anyBlacklist⟩ ⟨refout, last⟩).withTodo todo

/-- RES, INV and ILL after a step. -/
def regs (o : Host.Outcome State Fault Refusal) : Option (Nat × Bool × Bool) :=
  match o with
  | .next s => some (s.res.toNat, s.inv, s.ill)
  | _ => none

/-- RES, INV and ILL after the block at hand, just reset, is given one word. -/
def word (w : Nat) : Option (Nat × Bool × Bool) := regs (step (State.reset.withFetchWord 32 w))

/-- The same with a concrete BLACKLIST and any other parameters. -/
def wordWith (refout last : Bool) (w : Nat) : Option (Nat × Bool × Bool) :=
  regs (step ((block0 refout last []).withFetchWord 32 w))

/-! ### Well-formedness: the one check refuses an ill-formed term (R63) -/

theorem test_wf_slice_5 : (Instr.slice 0x12345 5).wellFormed = false := by decide
theorem test_wf_slice_4 : (Instr.slice 0x12345 4).wellFormed = true := by decide

/-! ### Decoding: words written out from R60's fields, `oooo rrrrr bbb a…a` -/

theorem test_decode_fwd : decode 0b0001_00000_000_000000000000_10100101#32 = .ok (.fwd 0b10100101) := rfl
theorem test_decode_rev : decode 0b0010_00000_000_000000000000_11100100#32 = .ok (.rev 0b11100100) := rfl
theorem test_decode_crc12 : decode 0b0011_00000_000_000000000000_01111111#32 = .ok (.crc12 0b01111111) := rfl
theorem test_decode_code : decode 0b0100_00000_000_000000000000_11001000#32 = .ok (.code 0b11001000) := rfl
theorem test_decode_enc : decode 0b0101_00000_000_0000000000000000_1011#32 = .ok (.enc 0b1011) := rfl
theorem test_decode_syn : decode 0b0110_00000_000_0000000000000_1100010#32 = .ok (.syn 0b1100010) := rfl
theorem test_decode_cor : decode 0b0111_00000_011_0000000000000_1100010#32 = .ok (.cor 0b1100010 0b011) := rfl
theorem test_decode_dec : decode 0b1000_00000_000_0000000000000_1100101#32 = .ok (.dec 0b1100101) := rfl
theorem test_decode_slice :
    decode 0b1001_00000_100_10100000101100000000#32 = .ok (.slice 0b10100000101100000000 0b100) := rfl
theorem test_decode_grid : decode 0b1010_00000_000_00010010001101000101#32 = .ok (.grid 0b00010010001101000101) := rfl
theorem test_decode_mark : decode 0b1011_00000_000_000000000000_00000011#32 = .ok (.mark 0b00000011) := rfl

/-- V5: the reasons of illegal words. -/
theorem test_decode_illegal :
    decode 0x00000000 = .error .illOpcode ∧ decode 0xC0000000 = .error .illOpcode ∧
      decode 0x10800000 = .error .illRsv ∧ decode 0x1F8FFFFF = .error .illRsv ∧
      decode 0xA0100000 = .error .illB ∧ decode 0x90500000 = .error .illB ∧
      decode 0xB0000100 = .error .illA ∧ decode 0x70700080 = .error .illA := by
  refine ⟨?_, ?_, ?_, ?_, ?_, ?_, ?_, ?_⟩ <;> rfl

/-- R69's examples. -/
theorem test_assemble :
    assembleLine "ENC   0xB          ; w = 0x5000000B".toList = .ok (some 0x5000000B) ∧
      assembleLine "COR   0x62, 3".toList = .ok (some 0x70300062) ∧
      assembleLine "SLICE 0x12345, 2".toList = .ok (some 0x90212345) ∧
      assembleLine ".word 0x00000000   ; illegal on purpose".toList = .ok (some 0) ∧
      assembleLine "ENC 16".toList = .error .doesNotFit := by
  refine ⟨?_, ?_, ?_, ?_, ?_⟩ <;> rfl

/-! ### Each command from reset (V1 to V5) -/

theorem test_fwd_blacklisted : word 0x10000009 = some (0xFFFFFFFFF, true, false) := by decide
/-- R87, under BL_LOW. -/
theorem test_fwd_7 : wordWith true false 0x10000007 = some (5, false, false) := by decide
theorem test_rev_229 : word 0x200000E5 = some (0xFFFFFFFFF, true, false) := by decide
/-- R87, under BL_LOW. -/
theorem test_rev_5 : wordWith true false 0x20000005 = some (7, false, false) := by decide
theorem test_crc12_100 : word 0x30000064 = some (0x3E2, false, false) := by decide
theorem test_crc12_100_plain : wordWith false false 0x30000064 = some (0x47C, false, false) := by decide
theorem test_code_200 : word 0x400000C8 = some (0x7DAC8, false, false) := by decide
theorem test_code_255 : wordWith false false 0x400000FF = some (0xFF, false, false) := by decide
/-- E1. -/
theorem test_enc_B : word 0x5000000B = some (0x66, false, false) := by decide
theorem test_syn_65 : word 0x60000065 = some (3, false, false) := by decide
theorem test_cor_66_7 : word 0x70700066 = some (0x26, false, false) := by decide
/-- E1. -/
theorem test_dec_62 : word 0x80000062 = some (0xB, false, false) := by decide
theorem test_dec_two_errors : word 0x80000065 = some (3, false, false) := by decide
theorem test_slice_4 : word 0x904A0B00 = some (0xA, false, false) := by decide
theorem test_slice_5 : word 0x90500000 = some (0, false, true) := by decide
theorem test_grid_12345 : word 0xA0012345 = some (0x5583D0336, false, false) := by decide
theorem test_grid_last_cell : wordWith true true 0xA0001E02 = some (0xA0A449128, false, false) := by decide +kernel
theorem test_mark_0 : word 0xB0000000 = some (0x128085090, false, false) := by decide +kernel
theorem test_mark_3 : wordWith false false 0xB0000003 = some (0x460942130, false, false) := by decide +kernel

/-! ### Reset, power-on and reads (V6) -/

theorem test_power_on_read : step (State.powerOn [.readRes]) = .fault .readBeforeReset := rfl
theorem test_power_on_reset : regs (step (State.powerOn [.reset])) = some (0, false, false) := by decide
theorem test_status_bits : statusWord true false = 0b01 ∧ statusWord false true = 0b10 := by decide

/-! ### Witnesses: the hypotheses of each statement can be met, clause by clause -/

/-- The legal word FWD 2, the illegal all-zero word. -/
theorem witness_words : legal 0x10000002 = true ∧ legal 0 = false ∧ legal 0xC0000000 = false := by decide

theorem witness_ResetValues :
    ((block0 true false [.reset]).todo = .reset :: [] ∧
      step (block0 true false [.reset]) = .next (block0 true false [])) ∧
    ((State.powerOn [.readRes]).phase = .unreset ∧ (State.powerOn [.readRes]).todo = .readRes :: []) ∧
    (State.powerOn [.readStatus]).phase = .unreset ∧ (State.powerOn [.readStatus]).todo = .readStatus :: [] :=
  ⟨⟨rfl, rfl⟩, ⟨rfl, rfl⟩, rfl, rfl⟩

theorem witness_ResetIsOneStep :
    (block0 true false [.reset, .reset]).todo = .reset :: .reset :: [] ∧
    (block0 true false [.reset]).setIll.ill = true ∧
      step (block0 true false [.reset]).setIll = .next (block0 true false []) ∧ (block0 true false []).ill = false :=
  ⟨rfl, rfl, rfl, rfl⟩

theorem witness_NothingBeforeFirstReset :
    ((State.powerOn [.readStatus]).phase = .unreset ∧ (State.powerOn [.readStatus]).todo = .readStatus :: []) ∧
    ((State.powerOn [.write 0]).phase = .unreset ∧ (State.powerOn [.write 0]).todo = .write 0 :: []) ∧
    (State.powerOn [.reset]).todo = .reset :: [] ∧
    Ready (block0 true false []) ∧ step (block0 true false []) = .next (block0 true false []) :=
  ⟨⟨rfl, rfl⟩, ⟨rfl, rfl⟩, rfl, rfl, rfl⟩

theorem witness_RunAfterResetNeverStops : Ready (block0 true false [.write 0, .readStatus]) := rfl

theorem witness_StepKeepsSound :
    Sound (block0 true false [.write 0x10000002]) ∧
      step (block0 true false [.write 0x10000002]) = .next (withInvalid (block0 true false [])) :=
  ⟨by decide, rfl⟩

theorem witness_RomNeverChanges :
    Sys2Proof.core.run 1 (block0 true false [.write 0]) = .next (block0 true false []).setIll := rfl

theorem witness_IllIsSticky :
    (Ready (block0 true false [.write 0]) ∧ (block0 true false [.write 0]).todo = .write 0 :: [] ∧ legal 0 = false) ∧
    (Ready (block0 true false [.write 0x10000002]) ∧ legal 0x10000002 = true) ∧
    ((block0 true false [.write 0x10000002]).setIll.ill = true ∧
      step (block0 true false [.write 0x10000002]).setIll = .next (withInvalid (block0 true false []).setIll) ∧
      ∀ rest, (block0 true false [.write 0x10000002]).setIll.todo ≠ .reset :: rest) ∧
    (block0 true false [.reset]).todo = .reset :: [] ∧ (Instr.slice 0 4).wellFormed = true :=
  ⟨⟨rfl, rfl, rfl⟩, ⟨rfl, rfl⟩, ⟨rfl, rfl, fun _ h => by cases h⟩, rfl, rfl⟩

theorem witness_PortsReadAndWrite :
    (Ready (block0 true false [.write 0, .write 0]) ∧
      (block0 true false [.write 0, .write 0]).todo = .write 0 :: .write 0 :: []) ∧
    (Ready (block0 true false [.readRes]) ∧ (block0 true false [.readRes]).todo = .readRes :: []) ∧
    (Ready (block0 true false [.readStatus]) ∧ (block0 true false [.readStatus]).todo = .readStatus :: []) ∧
    Ready (block0 true false [.readRes, .readRes]) ∧
      (block0 true false [.readRes, .readRes]).todo = .readRes :: .readRes :: [] :=
  ⟨⟨rfl, rfl⟩, ⟨rfl, rfl⟩, ⟨rfl, rfl⟩, rfl, rfl⟩

theorem witness_IdleWhenHostIsDone : (block0 true false []).todo = [] := rfl

theorem witness_StepRunsDecodedCommand :
    (block0 true false [.write 0x5000000B]).todo = .write 0x5000000B :: [] ∧ decode 0x5000000B = .ok (.enc 0xB) :=
  ⟨rfl, rfl⟩

theorem witness_PlacedWordRunsNext : decodeTableWord 32 0x904FFFFF = some (.slice 0xFFFFF 4) := rfl

theorem witness_IllegalWordOnlySetsIll :
    Ready (block0 true false [.write 0x90500000]) ∧
      (block0 true false [.write 0x90500000]).todo = .write 0x90500000 :: [] ∧ legal 0x90500000 = false :=
  ⟨rfl, rfl, rfl⟩

theorem witness_LegalWordsRun : Ready (block0 true false []) ∧ legal 0x904FFFFF = true ∧ legal 0x905FFFFF = false := by decide

theorem witness_MatchMaskTableDecides :
    (0x90500000 : Word) &&& Op.slice.maskWord = Op.slice.matchWord ∧ Op.slice.matchesRow 0x90400000 = true := by decide

theorem witness_IllegalWordsAreThese : Ready (block0 true false []) ∧ legal 0xA0100000 = false ∧ legal 0x50000010 = false := by decide

theorem witness_ExactlyOneOutcome : Ready (block0 true false []) := rfl

theorem witness_DecodeInvertsEncode :
    (Instr.slice 0xFFFFF 4).wellFormed = true ∧ (Instr.cor 0x7F 7).wellFormed = true := by decide

theorem witness_EncodeInvertsDecode : decode 0x7070007F = .ok (.cor 0x7F 7) := rfl

theorem witness_CommandWordsAreFormedFromOperands :
    assembleCommand .slice 0xFFFFF 4 = .ok 0x904FFFFF ∧ (Instr.slice 0xFFFFF 4).wellFormed = true ∧
      assembleCommand .slice 0xFFFFF 5 = .error .doesNotFit :=
  ⟨rfl, rfl, rfl⟩

theorem witness_CommandsWriteResAndInvOnly :
    Ready (block0 true false []) ∧ (Instr.slice 0xFFFFF 4).wellFormed = true := ⟨rfl, rfl⟩

theorem witness_InvHasThreeCauses : Ready (block0 false true []) ∧ (Instr.rev 229).wellFormed = true := ⟨rfl, rfl⟩

theorem witness_ResultsAreZeroExtended :
    Ready (block0 true false []) ∧ (Instr.grid 0xFFFFF).wellFormed = true ∧
      exec (.grid 0) (block0 true false []) = .next (block0 true false []) ∧ (block0 true false []).inv = false :=
  ⟨rfl, rfl, rfl, rfl⟩

theorem witness_CommandsReadOnlyOperandsAndRom :
    Ready (block0 true false []) ∧ Ready (withInvalid (block0 true false [.readRes])).setIll ∧
      SameBuild (block0 true false []) (withInvalid (block0 true false [.readRes])).setIll ∧
      (Instr.mark 228).wellFormed = true :=
  ⟨rfl, rfl, ⟨rfl, rfl⟩, rfl⟩

theorem witness_InvalidWordMeansInvalid : Ready (block0 true true []) ∧ Instr.mark 228 = .mark 228 := ⟨rfl, rfl⟩

/-- The set of the concrete block: 27 bytes, the listed ones among them, 0 not. -/
theorem witness_BlacklistIsAnySetOfTwentySeven :
    (List.range 256).countP (fun x => (fun r : Byte => decide (r ∈ listedMembers ++ Config.anyBlacklist.rest))
      (BitVec.ofNat 8 x)) = 27 ∧
    (∀ r ∈ [2, 3, 8, 9, 255], decide (r ∈ listedMembers ++ Config.anyBlacklist.rest) = true) ∧
    decide ((0 : Byte) ∈ listedMembers ++ Config.anyBlacklist.rest) = false := by
  exact ⟨by decide +kernel, by decide, by decide⟩

theorem witness_FwdReturnsThePosition :
    Ready (block0 true false []) ∧ blacklisted (block0 true false []).rom.blacklist 31 = true ∧
      blacklisted (block0 true false []).rom.blacklist 254 = false ∧ (255 : Byte) ∈ [2, 3, 8, 9, 255] := by
  decide

theorem witness_RevReturnsTheByteAtThePosition :
    Ready (block0 true false []) ∧ 228 < (229 : Byte).toNat ∧ (228 : Byte).toNat ≤ 228 ∧
      blacklisted (block0 true false []).rom.blacklist 254 = false := by
  decide

theorem witness_ReverseTableIsTheInverse :
    ((0 : Byte).toNat ≤ 228 ∧ blacklisted Config.anyBlacklist 4 = false ∧
      romFwd ⟨Config.anyBlacklist⟩ 4 = some 2) ∧
    (1 : Byte).toNat < (2 : Byte).toNat ∧
      romRev ⟨Config.anyBlacklist⟩ 1 = .ok 1 ∧ romRev ⟨Config.anyBlacklist⟩ 2 = .ok 4 :=
  ⟨⟨by decide, by decide, by decide⟩, by decide, rfl, rfl⟩

theorem witness_LookupsAreInverse : (228 : Byte).toNat ≤ 228 ∧ blacklisted Config.anyBlacklist 254 = false := by decide

theorem witness_RomRevIsNeverMisused :
    Ready (block0 true false []) ∧ (228 : Byte).toNat ≤ 228 ∧ 228 < (229 : Byte).toNat := by decide

theorem witness_ForcedLookupValues : Ready (block0 false false []) := rfl

theorem witness_LookupValuesUnderBlLow :
    Ready (block0 true false []) ∧ blLow (block0 true false []).rom.blacklist = true ∧
      ∀ r : Byte, r.toNat ≤ 9 → (blacklisted (block0 true false []).rom.blacklist r = true ↔ r ∈ [2, 3, 8, 9]) := by
  refine ⟨rfl, by decide, fun r h => ?_⟩
  have hr : r ∈ (List.range 10).map (BitVec.ofNat 8) :=
    List.mem_map.2 ⟨r.toNat, List.mem_range.2 (by omega), BitVec.eq_of_toNat_eq (by simp)⟩
  revert r
  decide

theorem witness_ChecksumIsLinearAndInjective : checksum12 true 255 = checksum12 true 255 := rfl

theorem witness_Crc12ReturnsTheChecksum : Ready (block0 true false []) := rfl

theorem witness_CodeReturnsTheMarkerCode : Ready (block0 false false []) := rfl

theorem witness_CodewordsOfTheTable : (0 : Nibble) ≠ 0xF := by decide

theorem witness_EncReturnsTheCodeword : Ready (block0 true true []) := rfl

theorem witness_SynReturnsTheSyndrome :
    Ready (block0 true false []) ∧ (0x66 : Codeword) = hamEncode 0xB ∧
      6 < 7 ∧ (0x26 : Codeword) = hamEncode 0xB ^^^ (1#7 <<< 6) := by
  decide

theorem witness_CorFlipsTheNamedBit : Ready (block0 true false []) ∧ 6 < 7 := by decide

theorem witness_DecReturnsTheNearestNibble :
    Ready (block0 true false []) ∧ (0x66 : Codeword) = hamEncode 0xB ∧
      (0x67 : Codeword) = hamEncode 0xB ^^^ (1#7 <<< 0) ∧
      (0 < 7 ∧ 1 < 7 ∧ 0 ≠ 1 ∧ (0x65 : Codeword) = hamEncode 0xB ^^^ (1#7 <<< 0) ^^^ (1#7 <<< 1)) := by
  decide

theorem witness_EncThenDecCorrectsOneError : Ready (block0 true false []) ∧ 6 < 7 := by decide

theorem witness_SliceReturnsTheBlock :
    Ready (block0 true false []) ∧ (4 : BitVec 3).toNat ≤ 4 ∧ 4 < (5 : BitVec 3).toNat := by decide

theorem witness_IllFormedSliceIsIllegal : Ready (block0 true false []) ∧ 4 < (5 : BitVec 3).toNat := by decide

theorem witness_GridReturnsThePackedCodewords : Ready (block0 true true []) ∧ 6 < 7 ∧ 4 < 5 := by decide

theorem witness_CellMapOfAGrid : 5 < 6 ∧ 4 < 6 ∧ 6 * 5 + 4 < 35 ∧ 6 * 5 + 5 = 35 := by decide

theorem witness_MarkIsRevThenCodeThenGrid :
    (Ready (block0 true false []) ∧ 228 < (229 : Byte).toNat ∧ (228 : Byte).toNat ≤ 228) ∧
      (block0 true false []).build.crc12Refout = true ∧ (block0 true false []).build.lastCell = false := by decide

/-- One wrong cell, cell 34, which is bit 6 of block 4. -/
theorem witness_GridSurvivesOneErrorPerBlock :
    Ready (block0 true false []) ∧ (4 : BitVec 3).toNat ≤ 4 ∧
      ∀ i k, i < 7 → k < 7 → (0x400000000 : Res).getLsbD (5 * i + (4 : BitVec 3).toNat) = true →
        (0x400000000 : Res).getLsbD (5 * k + (4 : BitVec 3).toNat) = true → i = k := by
  refine ⟨rfl, by decide, ?_⟩
  intro i k hi hk
  interval_cases i <;> interval_cases k <;> decide

theorem witness_AssemblerLinesEmitTheirWords :
    (isRawLine "ENC 0xB".toList = false ∧ assembleLine "ENC 0xB".toList = .ok (some 0x5000000B)) ∧
    legal 0x904FFFFF = true ∧
    (tokens [] ".word 4294967295".toList = [.text ".word".toList, .text "4294967295".toList] ∧
      numberValue "4294967295".toList = some (2 ^ 32 - 1)) ∧
    (tokens [] ".word 4294967296".toList = [.text ".word".toList, .text "4294967296".toList] ∧
      numberValue "4294967296".toList = some (2 ^ 32)) ∧
    (tokens [] "ENC 16".toList = [.text "ENC".toList, .text "16".toList] ∧ opNamed "ENC".toList = some .enc ∧
      takesTwo .enc = false ∧ numberValue "16".toList = some 16 ∧ 2 ^ Op.enc.aWidth ≤ 16) ∧
    tokens [] "SLICE 1, 5".toList = [.text "SLICE".toList, .text "1".toList, .comma, .text "5".toList] ∧
      opNamed "SLICE".toList = some .slice ∧ takesTwo .slice = true ∧ numberValue "1".toList = some 1 ∧
      numberValue "5".toList = some 5 ∧ Op.slice.bMax < 5 :=
  ⟨⟨rfl, rfl⟩, rfl, ⟨rfl, rfl⟩, ⟨rfl, rfl⟩, ⟨rfl, rfl, rfl, rfl, by decide⟩, rfl, rfl, rfl, rfl, rfl, by decide⟩

end Sys2Proof.Tests
end

section
/-! What a command returns, as a function of its operands, the ROM and the build parameters (R2, R180). -/

namespace Sys2Proof.Machine

/-! ### The result of a command -/

/-- The reverse lookup as R84 and R159 use it: the byte of an identifier, none beyond 228. -/
def revLookup (rom : Rom) (i : Byte) : Option Byte :=
  if h : i.toNat < 229 then some (revEntry rom ⟨i.toNat, h⟩) else none

/-- The result of a lookup that may answer Invalid: what `f` makes of the byte found, INVALID for none (R25). -/
def Result.ofLookup (f : Byte → Res) : Option Byte → Result
  | none => .invalid
  | some r => .value (f r)

/-- The result of a well-formed command. It has no access to the registers or to the host (R2). -/
def commandResult (rom : Rom) (build : Build) : Instr → Result
  | .fwd r => .ofLookup zext36 (romFwd rom r)
  | .rev i => .ofLookup zext36 (revLookup rom i)
  | .crc12 r => .value (zext36 (checksum12 build.crc12Refout r))
  | .code r => .value (zext36 (markerCode build.crc12Refout r))
  | .enc n => .value (zext36 (hamEncode n))
  | .syn c => .value (zext36 (hamSyndrome c))
  | .cor c v => .value (zext36 (hamCorrect c v))
  | .dec c => .value (zext36 (hamDecode c))
  | .slice m j => .value (zext36 (block m j.toNat))
  | .grid m => .value (gridPack build.lastCell m)
  | .mark i => .ofLookup (fun r => gridPack build.lastCell (markerCode build.crc12Refout r)) (revLookup rom i)

/-! ### The reverse lookup -/

theorem revLookup_of_le {rom : Rom} {i : Byte} (h : i.toNat ≤ 228) :
    revLookup rom i = some (revEntry rom ⟨i.toNat, Nat.lt_succ_of_le h⟩) :=
  dif_pos (Nat.lt_succ_of_le h)

theorem revLookup_of_gt {rom : Rom} {i : Byte} (h : 228 < i.toNat) : revLookup rom i = none :=
  dif_neg (by omega)

/-- Within R42's bound a read of the reverse ROM does not fault. -/
theorem romRev_of_le {rom : Rom} {i : Byte} (h : i.toNat ≤ 228) :
    romRev rom i = .ok (revEntry rom ⟨i.toNat, Nat.lt_succ_of_le h⟩) :=
  romRev_eq_ok.2 ⟨Nat.lt_succ_of_le h, rfl⟩

/-! ### The commands that look up or check an operand -/

variable (s : State)

theorem execFwd_eq_complete (r : Byte) : execFwd r s = complete (.ofLookup zext36 (romFwd s.rom r)) s := by
  unfold execFwd
  cases romFwd s.rom r <;> rfl

theorem execRev_eq_complete (i : Byte) : execRev i s = complete (.ofLookup zext36 (revLookup s.rom i)) s := by
  unfold execRev
  split
  · next h => rw [revLookup_of_gt h]; rfl
  · next h => rw [revLookup_of_le (Nat.le_of_not_gt h), romRev_of_le (Nat.le_of_not_gt h)]; rfl

theorem execMark_eq_complete (i : Byte) :
    execMark i s = complete (.ofLookup
      (fun r => gridPack s.build.lastCell (markerCode s.build.crc12Refout r)) (revLookup s.rom i)) s := by
  unfold execMark
  split
  · next h => rw [revLookup_of_gt h]; rfl
  · next h => rw [revLookup_of_le (Nat.le_of_not_gt h), romRev_of_le (Nat.le_of_not_gt h)]; rfl

theorem execSlice_eq_complete (m : MarkerCode) {j : BitVec 3} (h : j.toNat ≤ 4) :
    execSlice m j s = complete (.value (zext36 (block m j.toNat))) s :=
  if_pos h

/-! ### Every command -/

/-- A well-formed command is its one write: it computes `commandResult` and completes with it. -/
theorem exec_eq_complete {i : Instr} (hwf : i.wellFormed = true) :
    exec i s = complete (commandResult s.rom s.build i) s := by
  cases i with
  | fwd r => exact execFwd_eq_complete s r
  | rev i => exact execRev_eq_complete s i
  | mark i => exact execMark_eq_complete s i
  | slice m j => exact execSlice_eq_complete s m (of_decide_eq_true hwf)
  | crc12 | code | enc | syn | cor | dec | grid => rfl

/-- In a block that has been reset, a well-formed command goes on and writes its result (R21, R180). -/
theorem exec_of_ready {i : Instr} (hs : Ready s) (hwf : i.wellFormed = true) :
    exec i s = .next (s.writeResult (commandResult s.rom s.build i)) := by
  rw [exec_eq_complete s hwf, complete_of_ready _ hs]

end Sys2Proof.Machine
end

section
/-! BLACKLIST as a set of bytes (R6): how many members it has, and that every set R6 allows is a value of it. -/

namespace Sys2Proof.Machine

theorem countP_range_eq_length_filter (p : Byte → Bool) :
    (List.range 256).countP (fun x => p (BitVec.ofNat 8 x)) = (allBytes.filter p).length := by
  rw [← List.countP_eq_length_filter, allBytes, List.countP_map]
  rfl

theorem pairwise_lt_allBytes : allBytes.Pairwise (fun x y => x.toNat < y.toNat) := by
  refine List.pairwise_map.2 (List.pairwise_lt_range.imp_of_mem fun hx hy hlt => ?_)
  have hx := List.mem_range.1 hx
  have hy := List.mem_range.1 hy
  simpa [Nat.mod_eq_of_lt hx, Nat.mod_eq_of_lt hy] using hlt

theorem length_blacklistMembers (bl : Blacklist) : (blacklistMembers bl).length = 27 := by
  obtain ⟨hlen, -, -⟩ := bl.wf
  rw [(blacklistMembers_perm bl).length_eq, List.length_append, hlen]
  rfl

theorem isOpenByte_iff {r : Byte} : isOpenByte r = true ↔ r ≠ 0 ∧ r ∉ listedMembers := by
  rw [isOpenByte, Bool.and_eq_true, bne_iff_ne, Bool.not_eq_true', ← Bool.not_eq_true, List.contains_iff_mem]

theorem blacklisted_iff {bl : Blacklist} {r : Byte} :
    blacklisted bl r = true ↔ r ∈ listedMembers ∨ isOpenByte r = true ∧ r ∈ bl.rest := by
  rw [blacklisted, Bool.or_eq_true, Bool.and_eq_true, List.contains_iff_mem, List.contains_iff_mem]

theorem blacklisted_of_mem_listedMembers {bl : Blacklist} {r : Byte} (h : r ∈ listedMembers) :
    blacklisted bl r = true :=
  blacklisted_iff.2 (.inl h)

theorem blacklisted_zero (bl : Blacklist) : blacklisted bl 0 = false := by
  have hlisted : listedMembers.contains 0 = false := by decide
  have hopen : isOpenByte 0 = false := by decide
  rw [blacklisted, hlisted, hopen, Bool.false_and, Bool.or_false]

/-! ### A set of bytes as a value of the parameter -/

/-- What R6 (b) and (c) ask of a set of bytes: the listed members are in it and 0 is not. -/
structure KeepsListedFacts (p : Byte → Bool) : Prop where
  listed : ∀ r ∈ listedMembers, p r = true
  zero : p 0 = false

/-- The open bytes of a set, ascending: what the parameter holds of it beside the listed members. -/
def openMembers (p : Byte → Bool) : List Byte := allBytes.filter fun r => isOpenByte r && p r

theorem mem_openMembers {p : Byte → Bool} {r : Byte} :
    r ∈ openMembers p ↔ isOpenByte r = true ∧ p r = true := by
  simp [openMembers, mem_allBytes]

variable {p : Byte → Bool}

/-- A set that meets R6 (b) and (c) consists of the listed members and its open bytes. -/
theorem KeepsListedFacts.apply_iff (hp : KeepsListedFacts p) (r : Byte) :
    p r = true ↔ r ∈ listedMembers ∨ r ∈ openMembers p := by
  rw [mem_openMembers, isOpenByte_iff]
  by_cases hl : r ∈ listedMembers
  · simp only [hl, hp.listed r hl, true_or]
  · have h0 : p r = true → r ≠ 0 := by
      rintro hr rfl
      simp only [hp.zero, Bool.false_eq_true] at hr
    tauto

/-- `blacklistMembers_perm` for a set that is not yet a value of the parameter. -/
theorem KeepsListedFacts.filter_perm (hp : KeepsListedFacts p) :
    (allBytes.filter p).Perm (listedMembers ++ openMembers p) := by
  have hnodup : (listedMembers ++ openMembers p).Nodup := by
    refine List.Nodup.append (by decide) (nodup_allBytes.filter _) fun r hl ho => ?_
    exact (isOpenByte_iff.1 (mem_openMembers.1 ho).1).2 hl
  refine (List.perm_ext_iff_of_nodup (nodup_allBytes.filter _) hnodup).2 fun r => ?_
  simp only [List.mem_filter, mem_allBytes, true_and, List.mem_append, hp.apply_iff r]

/-- The open bytes of a set of 27 that meets R6 (b) and (c) are what the parameter may hold. -/
theorem KeepsListedFacts.unlistedWf_openMembers (hp : KeepsListedFacts p)
    (hcard : (allBytes.filter p).length = 27) : unlistedWf (openMembers p) := by
  refine ⟨?_, fun r hr => (mem_openMembers.1 hr).1, pairwise_lt_allBytes.filter _⟩
  have hlisted : listedMembers.length = 5 := rfl
  rw [hp.filter_perm.length_eq, List.length_append] at hcard
  omega

theorem KeepsListedFacts.blacklisted_eq (hp : KeepsListedFacts p) (hwf : unlistedWf (openMembers p)) (r : Byte) :
    blacklisted ⟨openMembers p, hwf⟩ r = p r := by
  rw [Bool.eq_iff_iff, blacklisted_iff, hp.apply_iff r]
  exact or_congr_right (and_iff_right_of_imp fun h => (mem_openMembers.1 h).1)

end Sys2Proof.Machine
end

section
/-! The statements of 00_scope.md. -/

namespace Sys2Proof.Proofs

open Sys2Proof.Machine

/-- Settles O26: each of the two blocks writes the same `commandResult`, which is given the ROM and the build parameters
alone. -/
theorem commandsReadOnlyOperandsAndRom : Obligations.CommandsReadOnlyOperandsAndRom := by
  intro s s' i hs hs' ⟨hrom, hbuild⟩ hwf
  refine ⟨_, _, exec_of_ready s hs hwf, exec_of_ready s' hs' hwf, ?_, ?_⟩
  · rw [State.writeResult_res, State.writeResult_res, hrom, hbuild]
  · rw [State.writeResult_inv, State.writeResult_inv, hrom, hbuild]

/-- Settles O28: a value of the parameter is the listed members and 22 others; and a set that meets R6 is the value that
holds its open bytes. -/
theorem blacklistIsAnySetOfTwentySeven : Obligations.BlacklistIsAnySetOfTwentySeven := by
  refine ⟨fun bl => ⟨?_, fun r hr => blacklisted_of_mem_listedMembers hr, blacklisted_zero bl⟩, ?_⟩
  · rw [countP_range_eq_length_filter (blacklisted bl)]
    exact length_blacklistMembers bl
  · intro p hcard hlisted hzero
    have hp : KeepsListedFacts p := ⟨hlisted, hzero⟩
    rw [countP_range_eq_length_filter p] at hcard
    have hwf := hp.unlistedWf_openMembers hcard
    exact ⟨⟨openMembers p, hwf⟩, hp.blacklisted_eq hwf⟩

end Sys2Proof.Proofs
end

section
/-! The command word: the decoder accepts exactly the words that are legal by R65, and gives well-formed commands. -/

namespace Sys2Proof

/-! ### The op field (R61) -/

theorem opOf_eq_some_iff {op : BitVec 4} {o : Op} : opOf op = some o ↔ op = o.number := by
  cases o <;> revert op <;> decide

theorem opOf_eq_none_iff {op : BitVec 4} : opOf op = none ↔ op.toNat = 0 ∨ 0xC ≤ op.toNat := by
  revert op
  decide

/-! ### The operand fields (R62, R63) -/

/-- A value has no bit from `k` upward exactly when it is below 2^k: R65 writes the first, `Op.aFits` the second. -/
theorem extractLsb'_eq_zero_iff {n k m : Nat} (a : BitVec n) (h : n = k + m) :
    a.extractLsb' k m = 0#m ↔ a.toNat < 2 ^ k := by
  have ha : a.toNat / 2 ^ k < 2 ^ m := Nat.div_lt_of_lt_mul (by rw [← pow_add, ← h]; exact a.isLt)
  rw [BitVec.toNat_eq, BitVec.extractLsb'_toNat, Nat.shiftRight_eq_div_pow, Nat.mod_eq_of_lt ha,
    BitVec.toNat_ofNat, Nat.zero_mod, Nat.div_eq_zero_iff_lt (Nat.two_pow_pos k)]

theorem aFits_iff {o : Op} {a : Nat} : o.aFits a = true ↔ a < 2 ^ o.aWidth := decide_eq_true_iff

theorem bFits_iff {o : Op} {b : Nat} : o.bFits b = true ↔ b ≤ o.bMax := decide_eq_true_iff

/-! ### Legality (R65) and the decoder -/

/-- R65's table of legal words in the decoder's terms: the op field names an operation, the reserved field is 0, and
both operands fit. -/
theorem legal_eq (w : Word) : legal w =
    (opOf (opField w)).any fun o => rsvField w == 0 && (o.bFits (bField w).toNat && o.aFits (aField w).toNat) := by
  have ha := (aField w).isLt
  have hb := Nat.le_of_lt_succ (bField w).isLt
  cases hop : opOf (opField w) with
  | none =>
    have hnone := opOf_eq_none_iff.1 hop
    simp only [legal, Option.any_none, Bool.and_eq_false_iff]
    right
    split
    case h_12 => rfl
    all_goals omega
  | some o =>
    have hnum := opOf_eq_some_iff.1 hop
    have hb0 : bField w = 0#3 ↔ (bField w).toNat = 0 := BitVec.toNat_eq
    rw [Bool.eq_iff_iff]
    cases o <;>
      simp [legal, hnum, Op.number, bFits_iff, Op.bMax, aFits_iff, Op.aWidth, extractLsb'_eq_zero_iff, hb0, ha, hb]

/-- All the decoder accepts, and what it makes of it. -/
theorem decode_eq_ok_iff {w : Word} {i : Instr} : decode w = .ok i ↔
    ∃ o, opOf (opField w) = some o ∧ rsvField w = 0 ∧ o.bFits (bField w).toNat = true ∧
      o.aFits (aField w).toNat = true ∧ o.command (aField w) (bField w) = i := by
  unfold decode
  cases opOf (opField w) with
  | none => simp
  | some o =>
    by_cases hrsv : rsvField w = 0#5
    · cases hb : o.bFits (bField w).toNat <;> cases ha : o.aFits (aField w).toNat <;> simp [hrsv, hb, ha]
    · simp [hrsv]

/-- R65, R68: the decoder accepts exactly the legal words. -/
theorem legal_iff_decode {w : Word} : legal w = true ↔ ∃ i, decode w = .ok i := by
  rw [legal_eq, Option.any_eq_true]
  simp only [decode_eq_ok_iff, Bool.and_eq_true, beq_iff_eq]
  constructor
  · rintro ⟨o, hop, hrsv, hb, ha⟩
    exact ⟨_, o, hop, hrsv, hb, ha, rfl⟩
  · rintro ⟨i, o, hop, hrsv, hb, ha, -⟩
    exact ⟨o, hop, hrsv, hb, ha⟩

theorem not_legal_iff_decode {w : Word} : legal w = false ↔ ∃ why, decode w = .error why := by
  rw [← Bool.not_eq_true, legal_iff_decode]
  cases decode w <;> simp

/-- Operand B within R63's bound makes a well-formed command. -/
theorem wellFormed_command {o : Op} {a : BitVec 20} {b : BitVec 3} (hb : o.bFits b.toNat = true) :
    (o.command a b).wellFormed = true := by
  cases o with
  | slice => exact hb
  | fwd | rev | crc12 | code | enc | syn | cor | dec | grid | mark => rfl

theorem wellFormed_of_decode {w : Word} {i : Instr} (h : decode w = .ok i) : i.wellFormed = true := by
  obtain ⟨o, -, -, hb, -, rfl⟩ := decode_eq_ok_iff.1 h
  exact wellFormed_command hb

end Sys2Proof
end

section
/-! All that one step of the machine can do, and what follows for a run. -/

namespace Sys2Proof.Machine

variable {s t : State}

/-! ### Reads and words -/

/-- R34: before the first reset RES has no value to read. -/
theorem readRes_of_unreset (h : s.phase = .unreset) : readRes s = .fault .readBeforeReset := by
  simp [readRes, h]

/-- R34: before the first reset STATUS has no value to read. -/
theorem readStatus_of_unreset (h : s.phase = .unreset) : readStatus s = .fault .readBeforeReset := by
  simp [readStatus, h]

/-- All a written word can do when the block goes on: the one write of the command it decodes to, or ILL set. -/
theorem execute_eq_next {w : Word} : execute w s = .next t ↔ Ready s ∧
    ((∃ i, decode w = .ok i ∧ t = s.writeResult (commandResult s.rom s.build i)) ∨
      ((∃ why, decode w = .error why) ∧ t = s.setIll)) := by
  cases h : decode w with
  | error why => simp [execute_of_error h, raiseIllegal_eq_next]
  | ok i => simp [execute_of_ok h, exec_eq_complete s (wellFormed_of_decode h), complete_eq_next]

/-! ### One step -/

/-- What a step that goes on has made of the state, case by case over the host's steps. -/
inductive StepEffect (s : State) : State → Prop
  /-- The host has no step left. -/
  | idle (e : s.todo = []) : StepEffect s s
  /-- RST was asserted (R200). -/
  | reset {rest : List HostStep} (e : s.todo = .reset :: rest) : StepEffect s (s.withTodo rest).clear
  /-- A legal word was written, and its command made its one write (R21). -/
  | command {rest : List HostStep} {w : Word} {i : Instr} (e : s.todo = .write w :: rest) (hs : Ready s)
      (hw : decode w = .ok i) : StepEffect s ((s.withTodo rest).writeResult (commandResult s.rom s.build i))
  /-- An illegal word was written (R183). -/
  | illegal {rest : List HostStep} {w : Word} {why : Reason} (e : s.todo = .write w :: rest) (hs : Ready s)
      (hw : decode w = .error why) : StepEffect s (s.withTodo rest).setIll
  /-- RES was read (R45). -/
  | readRes {rest : List HostStep} (e : s.todo = .readRes :: rest) (hs : Ready s) :
      StepEffect s ((s.withTodo rest).record (.res s.res))
  /-- STATUS was read (R45). -/
  | readStatus {rest : List HostStep} (e : s.todo = .readStatus :: rest) (hs : Ready s) :
      StepEffect s ((s.withTodo rest).record (.status (statusWord s.inv s.ill)))

theorem step_of_nil (e : s.todo = []) : step s = .next s := by
  simp [step, runStep, nextHostStep_nil e]

/-- Every step that goes on has one of these effects. -/
theorem stepEffect_of_step (h : step s = .next t) : StepEffect s t := by
  cases e : s.todo with
  | nil =>
    rw [step_of_nil e] at h
    cases h
    exact .idle e
  | cons x rest =>
    rw [step_of_cons e] at h
    cases x with
    | reset => exact assertReset_eq_next.1 h ▸ .reset e
    | readRes =>
      obtain ⟨hs, rfl⟩ := readRes_eq_next.1 h
      exact .readRes e hs
    | readStatus =>
      obtain ⟨hs, rfl⟩ := readStatus_eq_next.1 h
      exact .readStatus e hs
    | write w =>
      obtain ⟨hs, ⟨i, hw, rfl⟩ | ⟨⟨why, hw⟩, rfl⟩⟩ := execute_eq_next.1 h
      · exact .command e hs hw
      · exact .illegal e hs hw

/-- Every such effect is that of a step. -/
theorem StepEffect.step_eq (h : StepEffect s t) : step s = .next t := by
  cases h with
  | idle e => exact step_of_nil e
  | reset e => rw [step_of_cons e]; exact assertReset_eq_next.2 rfl
  | readRes e hs => rw [step_of_cons e]; exact readRes_eq_next.2 ⟨hs, rfl⟩
  | readStatus e hs => rw [step_of_cons e]; exact readStatus_eq_next.2 ⟨hs, rfl⟩
  | command e hs hw => rw [step_of_cons e]; exact execute_eq_next.2 ⟨hs, .inl ⟨_, hw, rfl⟩⟩
  | illegal e hs hw => rw [step_of_cons e]; exact execute_eq_next.2 ⟨hs, .inr ⟨⟨_, hw⟩, rfl⟩⟩

/-- Nothing writes the ROM (R32). -/
theorem StepEffect.rom_eq (h : StepEffect s t) : t.rom = s.rom := by
  cases h <;> rfl

/-- Nothing but RST clears ILL (R26). -/
theorem StepEffect.ill_of_ill (h : StepEffect s t) (hill : s.ill = true)
    (hreset : ∀ rest, s.todo ≠ .reset :: rest) : t.ill = true := by
  cases h with
  | reset e => exact absurd e (hreset _)
  | illegal => rfl
  | idle | command | readRes | readStatus => exact hill

/-! ### Runs -/

/-- A run of one step more is a step and then the run (R207). -/
theorem run_succ_eq_next (M : Host.Core) {k : Nat} {s t : M.State} :
    M.run (k + 1) s = .next t ↔ ∃ u, M.step s = .next u ∧ M.run k u = .next t := by
  rw [Host.Core.run]
  cases M.step s <;> simp

/-- A property every step keeps holds after every run. -/
theorem run_keeps {P : State → Prop} (hstep : ∀ u v, P u → step u = .next v → P v) {k : Nat} (hs : P s)
    (h : core.run k s = .next t) : P t := by
  induction k generalizing s with
  | zero => cases h; exact hs
  | succ k ih =>
    obtain ⟨u, hu, hrun⟩ := (run_succ_eq_next core).1 h
    exact ih (hstep s u hs hu) hrun

end Sys2Proof.Machine
end

section
/-! How wide a result is (R22), when it is INVALID (R24), and which results can look like INVALID_WORD (R25). -/

namespace Sys2Proof.Machine

open Sys2Proof.Stated

/-! ### When a result is INVALID (R24) -/

theorem Result.inv_ofLookup {f : Byte → Res} {o : Option Byte} : (Result.ofLookup f o).inv = true ↔ o = none := by
  cases o <;> simp [Result.ofLookup, Result.inv]

theorem revLookup_eq_none {rom : Rom} {i : Byte} : revLookup rom i = none ↔ 228 < i.toNat := by
  simp only [revLookup, dite_eq_right_iff, reduceCtorEq, imp_false]
  omega

/-- R24's three causes of INV, as conditions on the command. -/
theorem inv_commandResult_iff {rom : Rom} {build : Build} {i : Instr} :
    (commandResult rom build i).inv = true ↔
      (∃ r, i = .fwd r ∧ blacklisted rom.blacklist r = true) ∨
        (∃ k, i = .rev k ∧ 228 < k.toNat) ∨ ∃ k, i = .mark k ∧ 228 < k.toNat := by
  cases i with
  | fwd r => simp [commandResult, Result.inv_ofLookup, romFwd_eq_none]
  | rev k => simp [commandResult, Result.inv_ofLookup, revLookup_eq_none]
  | mark k => simp [commandResult, Result.inv_ofLookup, revLookup_eq_none]
  | crc12 | code | enc | syn | cor | dec | slice | grid => simp [commandResult, Result.inv]

/-! ### Widths (R22) -/

/-- A result that is not INVALID is below 2 to the width. -/
def Result.FitsIn (r : Result) (width : Nat) : Prop := r.inv = false → r.word.toNat < 2 ^ width

theorem Result.fitsIn_res (r : Result) : r.FitsIn 36 := fun _ => r.word.isLt

theorem Result.fitsIn_value_zext36 {n : Nat} (v : BitVec n) (h : n ≤ 36) : (Result.value (zext36 v)).FitsIn n := by
  intro _
  rw [Result.word, toNat_zext36 v h]
  exact v.isLt

theorem Result.fitsIn_ofLookup {f : Byte → Res} {n : Nat} (o : Option Byte) (hf : ∀ r, (Result.value (f r)).FitsIn n) :
    (Result.ofLookup f o).FitsIn n := by
  cases o with
  | none => exact nofun
  | some r => exact hf r

/-- Each command's result has the width R22 lists for it. -/
theorem fitsIn_commandResult (rom : Rom) (build : Build) (i : Instr) :
    (commandResult rom build i).FitsIn (resultWidth i.op) := by
  cases i with
  | fwd | rev => exact Result.fitsIn_ofLookup _ fun r => Result.fitsIn_value_zext36 r (by decide)
  | grid | mark => exact Result.fitsIn_res _
  | crc12 | code | enc | syn | cor | dec | slice => exact Result.fitsIn_value_zext36 _ (by decide)

/-! ### The cells of a grid (R151, R152, R153) -/

/-- Cells 0 to 34 as one row: cell c holds bit c / 5 of codeword c % 5 (R155). -/
theorem packedCells_eq (m : MarkerCode) :
    packedCells m = (List.range 35).map fun c => codewordBit m (c / 5) (c % 5) := rfl

theorem length_packedCells (m : MarkerCode) : (packedCells m).length = 35 := by
  rw [packedCells_eq, List.length_map, List.length_range]

theorem getLsbD_gridPack {lastCell : Bool} {m : MarkerCode} {c : Nat} (hc : c < 35) :
    (gridPack lastCell m).getLsbD c = codewordBit m (c / 5) (c % 5) := by
  have h36 : c < 36 := Nat.lt_succ_of_lt hc
  rw [gridPack, getLsbD_packBits, List.getD_append _ _ _ _ (by rwa [length_packedCells]), packedCells_eq]
  simp [h36, hc]

theorem getLsbD_gridPack_last (lastCell : Bool) (m : MarkerCode) : (gridPack lastCell m).getLsbD 35 = lastCell := by
  rw [gridPack, getLsbD_packBits, List.getD_append_right _ _ _ _ (by rw [length_packedCells]), length_packedCells]
  simp

/-- The codeword of a block, read back from the cells of its grid. -/
theorem getLsbD_hamEncode_block {lastCell : Bool} {m : MarkerCode} {i j : Nat} (hi : i < 7) (hj : j < 5) :
    (hamEncode (block m j)).getLsbD i = (gridPack lastCell m).getLsbD (5 * i + j) := by
  rw [getLsbD_gridPack (by omega), codewordBit, show (5 * i + j) / 5 = i by omega, show (5 * i + j) % 5 = j by omega]

/-! ### What looks like INVALID_WORD (R25; D7) -/

theorem eq_of_hamEncode_eq_allOnes {n : Nibble} : hamEncode n = BitVec.allOnes 7 → n = BitVec.allOnes 4 := by
  revert n
  decide

/-- D7: in a grid that shows INVALID_WORD every block of the marker code is 0xF. -/
theorem block_of_gridPack_eq_invalidWord {lastCell : Bool} {m : MarkerCode} (h : gridPack lastCell m = invalidWord)
    {j : Nat} (hj : j < 5) : block m j = BitVec.allOnes 4 := by
  refine eq_of_hamEncode_eq_allOnes (BitVec.eq_of_getLsbD_eq fun i hi => ?_)
  have hones : invalidWord = BitVec.allOnes 36 := rfl
  rw [getLsbD_hamEncode_block (lastCell := lastCell) hi hj, h, hones, BitVec.getLsbD_allOnes, BitVec.getLsbD_allOnes]
  simp only [hi, decide_true, decide_eq_true_eq]
  omega

/-- R105: the raw byte stands in the low bits of its marker code. -/
theorem setWidth_markerCode (refout : Bool) (r : Byte) : (markerCode refout r).setWidth 8 = r := by
  ext k hk
  simp [markerCode]

/-- R150: blocks 0 and 1 are the low byte of a marker code. -/
theorem block_append_block (m : MarkerCode) : block m 1 ++ block m 0 = m.setWidth 8 := by
  ext k hk
  simp only [block, BitVec.getElem_append, BitVec.getElem_extractLsb', BitVec.getElem_setWidth]
  split
  · rw [Nat.mul_zero, Nat.zero_add]
  · congr 1
    omega

/-- D7: the one byte whose marker code could fill a grid is 255, and its checksum is 0 (R103). -/
theorem gridPack_markerCode_ne_invalidWord (lastCell refout : Bool) (r : Byte) :
    gridPack lastCell (markerCode refout r) ≠ invalidWord := by
  intro h
  have hblock {j : Nat} (hj : j < 5) := block_of_gridPack_eq_invalidWord h hj
  have hr : r = 255 := by
    rw [← setWidth_markerCode refout r, ← block_append_block, hblock (by decide), hblock (by decide)]
    rfl
  have h2 : block (markerCode refout 255) 2 = 0 := by
    cases refout <;> rfl
  rw [hr] at hblock
  exact absurd (h2.symm.trans (hblock (by decide))) (by decide)

theorem zext36_byte_ne_invalidWord (r : Byte) : zext36 r ≠ invalidWord := by
  intro h
  have hr := r.isLt
  have hword : invalidWord.toNat = 2 ^ 36 - 1 := rfl
  rw [← h, toNat_zext36 r (by decide)] at hword
  omega

/-- Where no value is INVALID_WORD, RES alone tells that a lookup found nothing. -/
theorem Result.word_ofLookup_eq_invalidWord {f : Byte → Res} (o : Option Byte) (hf : ∀ r, f r ≠ invalidWord) :
    (Result.ofLookup f o).word = invalidWord ↔ (Result.ofLookup f o).inv = true := by
  cases o with
  | none => exact iff_of_true rfl rfl
  | some r => exact iff_of_false (hf r) Bool.false_ne_true

/-! ### What RES and INV say together -/

theorem Result.word_of_inv {r : Result} (h : r.inv = true) : r.word = invalidWord := by
  cases r with
  | value => exact absurd h Bool.false_ne_true
  | invalid => rfl

/-- A result that is not INVALID is narrow, or it is a grid and its cell 35 is LAST_CELL (R22, R152). -/
theorem narrow_or_grid_commandResult {rom : Rom} {build : Build} {i : Instr}
    (h : (commandResult rom build i).inv = false) :
    (commandResult rom build i).word.toNat < 2 ^ 20 ∨ (commandResult rom build i).word.getLsbD 35 = build.lastCell := by
  have hfits := fitsIn_commandResult rom build i h
  cases i with
  | grid m => exact .inr (getLsbD_gridPack_last _ _)
  | mark k =>
    right
    cases hk : revLookup rom k with
    | none => simp [commandResult, hk, Result.ofLookup, Result.inv] at h
    | some r => simp only [commandResult, hk, Result.ofLookup, Result.word, getLsbD_gridPack_last]
  | fwd | rev | crc12 | code | enc | syn | cor | dec | slice =>
    exact .inl (hfits.trans_le (Nat.pow_le_pow_right Nat.two_pos (by simp [resultWidth, Instr.op])))

theorem sound_of_cleared {s : State} (hs : Ready s) (hres : s.res = 0) (hinv : s.inv = false) : Sound s := by
  refine ⟨hs, fun h => ?_, fun _ => .inl ?_⟩
  · rw [hinv] at h
    cases h
  · rw [hres]
    decide

theorem sound_writeResult {s : State} (hs : Ready s) (i : Instr) :
    Sound (s.writeResult (commandResult s.rom s.build i)) :=
  ⟨hs, Result.word_of_inv, narrow_or_grid_commandResult⟩

/-- Every effect of a step keeps the invariant: RST and a command write RES and INV anew, the others leave them. -/
theorem StepEffect.sound {s t : State} (h : StepEffect s t) (hs : Sound s) : Sound t := by
  cases h with
  | reset => exact sound_of_cleared rfl rfl rfl
  | @command rest w i _ hready => exact sound_writeResult (s := s.withTodo rest) hready i
  | idle | illegal | readRes | readStatus => exact hs

end Sys2Proof.Machine
end

section
/-! The statements of 10_state.md. -/

namespace Sys2Proof.Proofs

open Sys2Proof.Machine

/-- Settles O5: the invariant over the six effects a step can have. -/
theorem stepKeepsSound : Obligations.StepKeepsSound :=
  fun _ _ hs h => (stepEffect_of_step h).sound hs

/-- Settles O7: each step leaves the ROM, so each run does, by induction on its length; a lookup is a function of the ROM. -/
theorem romNeverChanges : Obligations.RomNeverChanges := by
  intro k s t h
  have hrom : t.rom = s.rom :=
    run_keeps (P := fun u => u.rom = s.rom) (fun u v hu hstep => (stepEffect_of_step hstep).rom_eq.trans hu) rfl h
  exact ⟨hrom, fun r => by rw [hrom], fun i => by rw [hrom]⟩

/-- Settles O8. -/
theorem illIsSticky : Obligations.IllIsSticky := by
  refine ⟨?_, ?_, ?_, ?_, ?_⟩
  · intro s w rest hs e hw
    obtain ⟨why, hwhy⟩ := not_legal_iff_decode.1 hw
    exact ⟨_, (StepEffect.illegal e hs hwhy).step_eq, rfl⟩
  · intro s w rest hs e hw
    obtain ⟨i, hi⟩ := legal_iff_decode.1 hw
    exact ⟨_, (StepEffect.command e hs hi).step_eq, rfl⟩
  · intro s t hill h hreset
    exact (stepEffect_of_step h).ill_of_ill hill hreset
  · intro s rest e
    exact ⟨_, (StepEffect.reset e).step_eq, rfl⟩
  · intro s i b hs hwf
    exact ⟨_, exec_of_ready s hs hwf, exec_of_ready _ hs hwf⟩

/-- Settles O23: the command is its one write. -/
theorem commandsWriteResAndInvOnly : Obligations.CommandsWriteResAndInvOnly :=
  fun s _ hs hwf => ⟨_, exec_of_ready s hs hwf, rfl⟩

/-- Settles O24. -/
theorem invHasThreeCauses : Obligations.InvHasThreeCauses :=
  fun s _ hs hwf => ⟨_, exec_of_ready s hs hwf, inv_commandResult_iff⟩

/-- Settles O25. -/
theorem resultsAreZeroExtended : Obligations.ResultsAreZeroExtended :=
  fun s i hs hwf => ⟨_, exec_of_ready s hs hwf, fitsIn_commandResult s.rom s.build i⟩

/-- Settles O27: a lookup's byte is too small to be INVALID_WORD, and no marker code fills all 36 cells of a grid. -/
theorem invalidWordMeansInvalid : Obligations.InvalidWordMeansInvalid := by
  rintro s x i hs (rfl | rfl | rfl)
  · exact ⟨_, exec_of_ready s hs rfl, Result.word_ofLookup_eq_invalidWord _ zext36_byte_ne_invalidWord⟩
  · exact ⟨_, exec_of_ready s hs rfl, Result.word_ofLookup_eq_invalidWord _ zext36_byte_ne_invalidWord⟩
  · exact ⟨_, exec_of_ready s hs rfl, Result.word_ofLookup_eq_invalidWord _ (gridPack_markerCode_ne_invalidWord _ _)⟩

/-- Settles O1. -/
theorem resetValues : Obligations.ResetValues := by
  refine ⟨⟨rfl, rfl, rfl, rfl⟩, ?_, ?_, ?_⟩
  · intro s t rest e h
    rw [step_of_cons e] at h
    obtain rfl := assertReset_eq_next.1 h
    exact ⟨rfl, rfl, rfl, rfl, rfl⟩
  · intro s rest hs e
    rw [step_of_cons e]
    exact readRes_of_unreset hs
  · intro s rest hs e
    rw [step_of_cons e]
    exact readStatus_of_unreset hs

/-- Settles O6. -/
theorem resetIsSound : Obligations.ResetIsSound :=
  ⟨sound_of_cleared rfl rfl rfl, fun _ _ => sound_of_cleared rfl rfl rfl⟩

end Sys2Proof.Proofs
end

section
/-! When the machine stops (R34, R42, R201): only before the first reset, and never at the reverse ROM's index. -/

namespace Sys2Proof.Machine

variable {s : State} {f : Fault}

/-! ### Shared operations -/

theorem complete_eq_fault {r : Result} : complete r s = .fault f ↔ s.phase = .unreset ∧ f = .commandBeforeReset := by
  cases h : s.phase <;> simp [complete, h, eq_comm]

theorem raiseIllegal_eq_fault {w : Word} {why : Reason} :
    raiseIllegal w why s = .fault f ↔ s.phase = .unreset ∧ f = .commandBeforeReset := by
  cases h : s.phase <;> simp [raiseIllegal, h, eq_comm]

theorem readRes_eq_fault : readRes s = .fault f ↔ s.phase = .unreset ∧ f = .readBeforeReset := by
  cases h : s.phase <;> simp [readRes, h, eq_comm]

theorem readStatus_eq_fault : readStatus s = .fault f ↔ s.phase = .unreset ∧ f = .readBeforeReset := by
  cases h : s.phase <;> simp [readStatus, h, eq_comm]

/-! ### Commands and words -/

/-- The one form of command that no legal word carries (R63). -/
theorem eq_slice_of_not_wellFormed {i : Instr} (h : i.wellFormed ≠ true) :
    ∃ m j, i = .slice m j ∧ 4 < j.toNat := by
  cases i with
  | slice m j => exact ⟨m, j, rfl, Nat.lt_of_not_le fun hj => h (decide_eq_true hj)⟩
  | fwd | rev | crc12 | code | enc | syn | cor | dec | grid | mark => exact absurd rfl h

/-- A block index above 4 has the effect of an illegal word (R63). -/
theorem exec_slice_of_gt (s : State) (m : MarkerCode) {j : BitVec 3} (h : 4 < j.toNat) :
    exec (.slice m j) s = raiseIllegal (encode (.slice m j)) .illB s :=
  if_neg (Nat.not_le_of_gt h)

/-- The one fault of a command term, legal or not: it ran before the first reset (R201). -/
theorem exec_eq_fault {i : Instr} : exec i s = .fault f ↔ s.phase = .unreset ∧ f = .commandBeforeReset := by
  by_cases hwf : i.wellFormed = true
  · rw [exec_eq_complete s hwf, complete_eq_fault]
  · obtain ⟨m, j, rfl, hj⟩ := eq_slice_of_not_wellFormed hwf
    rw [exec_slice_of_gt s m hj, raiseIllegal_eq_fault]

theorem execute_eq_fault {w : Word} : execute w s = .fault f ↔ s.phase = .unreset ∧ f = .commandBeforeReset := by
  cases h : decode w with
  | error why => rw [execute_of_error h, raiseIllegal_eq_fault]
  | ok i => rw [execute_of_ok h, exec_eq_fault]

/-! ### Steps -/

/-- The fault a host step ends in when it is taken before the first reset (R34, R201); RST itself ends in none. -/
def HostStep.faultBeforeReset : HostStep → Option Fault
  | .reset => none
  | .write _ => some .commandBeforeReset
  | .readRes | .readStatus => some .readBeforeReset

theorem takeHostStep_eq_fault {h : HostStep} :
    takeHostStep h s = .fault f ↔ s.phase = .unreset ∧ h.faultBeforeReset = some f := by
  cases h with
  | reset => simp [takeHostStep, assertReset, HostStep.faultBeforeReset]
  | write w => simp [takeHostStep, execute_eq_fault, HostStep.faultBeforeReset, @eq_comm _ f]
  | readRes => simp [takeHostStep, readRes_eq_fault, HostStep.faultBeforeReset, @eq_comm _ f]
  | readStatus => simp [takeHostStep, readStatus_eq_fault, HostStep.faultBeforeReset, @eq_comm _ f]

/-- All the ways a step can stop the machine: a word or a read before the first reset (R201). -/
theorem step_eq_fault : step s = .fault f ↔
    s.phase = .unreset ∧ ∃ h rest, s.todo = h :: rest ∧ h.faultBeforeReset = some f := by
  cases e : s.todo with
  | nil => simp [step_of_nil e]
  | cons h rest => simp [step_of_cons e, takeHostStep_eq_fault]

theorem HostStep.faultBeforeReset_ne_romRevIndex (h : HostStep) : h.faultBeforeReset ≠ some .romRevIndex := by
  cases h <;> simp [HostStep.faultBeforeReset]

end Sys2Proof.Machine
end

section
/-! The bits of STATUS (R23), and the state an INVALID result leaves (R25). -/

namespace Sys2Proof.Machine

open Sys2Proof.Stated

theorem getLsbD_statusWord_zero (inv ill : Bool) : (statusWord inv ill).getLsbD 0 = inv := by
  rw [statusWord, getLsbD_packBits]
  rfl

theorem getLsbD_statusWord_one (inv ill : Bool) : (statusWord inv ill).getLsbD 1 = ill := by
  rw [statusWord, getLsbD_packBits]
  rfl

theorem writeResult_of_inv {r : Result} (s : State) (h : r.inv = true) : s.writeResult r = withInvalid s := by
  cases r with
  | value => exact absurd h Bool.false_ne_true
  | invalid => rfl

/-- A legal command whose result is INVALID shows INVALID_WORD with INV set, and leaves the rest (R25, R180). -/
theorem exec_of_inv {s : State} {i : Instr} (hs : Ready s) (hwf : i.wellFormed = true)
    (h : (commandResult s.rom s.build i).inv = true) : exec i s = .next (withInvalid s) := by
  rw [exec_of_ready s hs hwf, writeResult_of_inv s h]

end Sys2Proof.Machine
end

section
/-! The statements of 20_memory.md. -/

namespace Sys2Proof.Proofs

open Sys2Proof.Machine

/-- Settles O33: the index is checked before the ROM is read, so every fault of a command or a step is one of those before
the first reset. -/
theorem romRevIsNeverMisused : Obligations.RomRevIsNeverMisused := by
  refine ⟨fun rom i => ⟨fun h => ⟨_, romRev_of_le h⟩, fun h => romRev_eq_error.2 ⟨h, rfl⟩⟩, ?_, ?_, ?_⟩
  · exact fun s i hs h => ⟨exec_of_inv hs rfl (inv_commandResult_iff.2 (.inr (.inl ⟨i, rfl, h⟩))),
      exec_of_inv hs rfl (inv_commandResult_iff.2 (.inr (.inr ⟨i, rfl, h⟩)))⟩
  · intro i s h
    obtain ⟨-, hf⟩ := exec_eq_fault.1 h
    cases hf
  · intro s h
    obtain ⟨-, x, -, -, hf⟩ := step_eq_fault.1 h
    exact x.faultBeforeReset_ne_romRevIndex hf

/-- Settles O9: the effect of each host step, taken once or twice; a word decodes the same both times, and its result does
not read the registers. -/
theorem portsReadAndWrite : Obligations.PortsReadAndWrite := by
  refine ⟨fun s w rest e => step_of_cons e, ?_, ?_, ?_, ?_⟩
  · intro s w rest hs e
    cases hw : decode w with
    | error why =>
      exact ⟨_, _, (StepEffect.illegal e hs hw).step_eq, StepEffect.step_eq (.illegal rfl hs hw), rfl, rfl, rfl⟩
    | ok i =>
      exact ⟨_, _, (StepEffect.command e hs hw).step_eq, StepEffect.step_eq (.command rfl hs hw), rfl, rfl, rfl⟩
  · exact fun s rest hs e => (StepEffect.readRes e hs).step_eq
  · exact fun s rest hs e => ⟨statusWord s.inv s.ill, getLsbD_statusWord_zero _ _, getLsbD_statusWord_one _ _,
      (StepEffect.readStatus e hs).step_eq⟩
  · rintro s h rest hs (rfl | rfl) e
    · exact ⟨_, _, .res s.res, (StepEffect.readRes e hs).step_eq, StepEffect.step_eq (.readRes rfl hs),
        List.append_assoc _ _ _⟩
    · exact ⟨_, _, .status (statusWord s.inv s.ill), (StepEffect.readStatus e hs).step_eq,
        StepEffect.step_eq (.readStatus rfl hs), List.append_assoc _ _ _⟩

end Sys2Proof.Proofs
end

section
/-! The command word taken apart into its four fields and put together again (R60); the decoder and the encoder are
inverse to each other. -/

namespace Sys2Proof

/-! ### Fields of a word (R60) -/

theorem bField_packWord (op : BitVec 4) (b : BitVec 3) (a : BitVec 20) : bField (packWord op b a) = b := by
  rw [bField, packWord, BitVec.extractLsb'_append_eq_of_le (Nat.le_refl 20)]
  exact BitVec.extractLsb'_append_eq_right

theorem aField_packWord (op : BitVec 4) (b : BitVec 3) (a : BitVec 20) : aField (packWord op b a) = a :=
  BitVec.extractLsb'_append_eq_right

/-- A word is its four fields in a row. -/
theorem append_fields (w : Word) : opField w ++ rsvField w ++ bField w ++ aField w = w := by
  simp only [opField, rsvField, bField, aField, BitVec.extractLsb'_append_extractLsb'_eq_extractLsb']
  exact BitVec.extractLsb'_eq_self

/-- No bit of a word lies outside the fields, so a word whose reserved field is 0 is packed from the other three. -/
theorem packWord_fields {w : Word} (hrsv : rsvField w = 0) : packWord (opField w) (bField w) (aField w) = w := by
  conv_rhs => rw [← append_fields w, hrsv]
  rfl

/-- R69's formula for the word is R60's layout. -/
theorem packWord_eq_shiftLeft_or (op : BitVec 4) (b : BitVec 3) (a : BitVec 20) :
    packWord op b a = (op.setWidth 32 <<< 28) ||| (b.setWidth 32 <<< 20) ||| a.setWidth 32 := by
  rw [← BitVec.setWidth_eq (packWord op b a), packWord,
    BitVec.setWidth_append_append_append_eq_shiftLeft_setWidth_or]
  simp

/-! ### A command and its operands (R61, R62, R63) -/

theorem op_command (o : Op) (a : BitVec 20) (b : BitVec 3) : (o.command a b).op = o := by
  cases o <;> rfl

/-- Cutting a value to a width it fits, and widening it again, changes nothing. -/
theorem setWidth_setWidth_of_lt {n k : Nat} {a : BitVec n} (h : a.toNat < 2 ^ k) : (a.setWidth k).setWidth n = a := by
  apply BitVec.eq_of_toNat_eq
  rw [BitVec.toNat_setWidth, BitVec.toNat_setWidth, Nat.mod_eq_of_lt h, Nat.mod_eq_of_lt a.isLt]

theorem operandA_command {o : Op} {a : BitVec 20} (b : BitVec 3) (ha : o.aFits a.toNat = true) :
    (o.command a b).operandA = a := by
  have hcut := setWidth_setWidth_of_lt (aFits_iff.1 ha)
  cases o with
  | slice | grid => rfl
  | fwd | rev | crc12 | code | enc | syn | cor | dec | mark => exact hcut

theorem operandB_command {o : Op} (a : BitVec 20) {b : BitVec 3} (hb : o.bFits b.toNat = true) :
    (o.command a b).operandB = b := by
  have hle := bFits_iff.1 hb
  cases o with
  | cor | slice => rfl
  | fwd | rev | crc12 | code | enc | syn | dec | grid | mark =>
    exact (BitVec.eq_of_toNat_eq (Nat.le_zero.1 hle)).symm

/-- A command is its operation and its operands. -/
theorem command_operands (i : Instr) : i.op.command i.operandA i.operandB = i := by
  cases i with
  | slice | grid => rfl
  | fwd | rev | crc12 | code | enc | syn | cor | dec | mark =>
    simp [Instr.op, Instr.operandA, Instr.operandB, Op.command]

theorem aFits_operandA (i : Instr) : i.op.aFits i.operandA.toNat = true := by
  have widened {k : Nat} (v : BitVec k) : (v.setWidth 20).toNat < 2 ^ k := by
    rw [BitVec.toNat_setWidth]
    exact (Nat.mod_le _ _).trans_lt v.isLt
  refine aFits_iff.2 ?_
  cases i with
  | slice m _ | grid m => exact m.isLt
  | fwd v | rev v | crc12 v | code v | enc v | syn v | cor v _ | dec v | mark v => exact widened v

theorem bFits_operandB {i : Instr} (hwf : i.wellFormed = true) : i.op.bFits i.operandB.toNat = true := by
  cases i with
  | slice => exact hwf
  | cor _ v => exact bFits_iff.2 (Nat.le_of_lt_succ v.isLt)
  | fwd | rev | crc12 | code | enc | syn | dec | grid | mark => rfl

/-! ### Decoder and encoder (R65, R68) -/

/-- The decoder's answer to a word packed from an operation and operands that fit. -/
theorem decode_packWord {o : Op} {a : BitVec 20} {b : BitVec 3} (ha : o.aFits a.toNat = true)
    (hb : o.bFits b.toNat = true) : decode (packWord o.number b a) = .ok (o.command a b) := by
  refine decode_eq_ok_iff.2 ⟨o, ?_, rsvField_packWord _ _ _, ?_, ?_, ?_⟩
  · exact opOf_eq_some_iff.2 (opField_packWord _ _ _)
  · rwa [bField_packWord]
  · rwa [aField_packWord]
  · rw [aField_packWord, bField_packWord]

theorem decode_encode {i : Instr} (hwf : i.wellFormed = true) : decode (encode i) = .ok i := by
  rw [encode, decode_packWord (aFits_operandA i) (bFits_operandB hwf), command_operands]

/-- The fields of a word that decodes are its command's operation and operands, and nothing else. -/
theorem fields_of_decode {w : Word} {i : Instr} (h : decode w = .ok i) :
    i.op.number = opField w ∧ i.operandA = aField w ∧ i.operandB = bField w ∧ rsvField w = 0 := by
  obtain ⟨o, hop, hrsv, hb, ha, rfl⟩ := decode_eq_ok_iff.1 h
  exact ⟨by rw [op_command, opOf_eq_some_iff.1 hop], operandA_command _ ha, operandB_command _ hb, hrsv⟩

theorem encode_of_decode {w : Word} {i : Instr} (h : decode w = .ok i) : encode i = w := by
  obtain ⟨hop, ha, hb, hrsv⟩ := fields_of_decode h
  rw [encode, hop, ha, hb, packWord_fields hrsv]

theorem decode_of_decodeTableWord {nbits w : Nat} {i : Instr} (h : decodeTableWord nbits w = some i) :
    decode (tableWord nbits w) = .ok i := by
  unfold decodeTableWord at h
  split at h
  · next hw => cases h; exact hw
  · cases h

end Sys2Proof
end

section
/-! R65's legality in the other forms the spec gives it: as the match and mask table (R66), and as the list of what makes
a word illegal (R67). -/

namespace Sys2Proof

open Sys2Proof.Stated

/-- R65 for the words whose op field names the operation. -/
theorem legal_iff_of_opField {o : Op} {w : Word} (h : opField w = o.number) : legal w = true ↔
    rsvField w = 0 ∧ o.bFits (bField w).toNat = true ∧ o.aFits (aField w).toNat = true := by
  simp [legal_eq, opOf_eq_some_iff.2 h]

/-- The words that decode to a command of an operation are the legal ones with its number in the op field. -/
theorem exists_decode_op_iff {o : Op} {w : Word} : (∃ i, decode w = .ok i ∧ i.op = o) ↔
    opField w = o.number ∧ legal w = true := by
  constructor
  · rintro ⟨i, h, rfl⟩
    exact ⟨(fields_of_decode h).1.symm, legal_iff_decode.2 ⟨i, h⟩⟩
  · rintro ⟨hop, hw⟩
    obtain ⟨hrsv, hb, ha⟩ := (legal_iff_of_opField hop).1 hw
    exact ⟨_, decode_eq_ok_iff.2 ⟨o, opOf_eq_some_iff.2 hop, hrsv, hb, ha, rfl⟩, op_command _ _ _⟩

theorem number_injective : Function.Injective Op.number := by
  intro o o' h
  exact Option.some_injective _ ((opOf_eq_some_iff.2 rfl).symm.trans (opOf_eq_some_iff.2 h))

/-! ### The match and mask table (R66) -/

/-- The bits of operand B that R66's mask tests: none where the operation takes one. -/
def Op.bMask : Op → BitVec 3
  | .cor | .slice => 0
  | .fwd | .rev | .crc12 | .code | .enc | .syn | .dec | .grid | .mark => 7

/-- A row's mask, field by field: all of op and rsv, and of operand A the bits above its width. -/
theorem maskWord_eq (o : Op) : o.maskWord =
    BitVec.allOnes 4 ++ BitVec.allOnes 5 ++ o.bMask ++ (BitVec.allOnes 20 <<< o.aWidth) := by
  cases o <;> rfl

theorem matchWord_eq (o : Op) : o.matchWord = o.number ++ 0#5 ++ 0#3 ++ 0#20 := by
  cases o <;> rfl

/-- Values of fixed widths written one after the other can be told apart again. -/
theorem append_eq_append_iff {n m : Nat} {x x' : BitVec n} {y y' : BitVec m} :
    x ++ y = x' ++ y' ↔ x = x' ∧ y = y' := by
  constructor
  · intro h
    have hx := congrArg (BitVec.extractLsb' m n) h
    have hy := congrArg (BitVec.setWidth m) h
    rw [BitVec.extractLsb'_append_eq_left, BitVec.extractLsb'_append_eq_left] at hx
    rw [BitVec.setWidth_append_eq_right, BitVec.setWidth_append_eq_right] at hy
    exact ⟨hx, hy⟩
  · rintro ⟨rfl, rfl⟩
    rfl

/-- A value has no bit in common with the mask of the bits from `k` upward exactly when it is below 2^k. -/
theorem and_allOnes_shiftLeft_eq_zero_iff {n k : Nat} (a : BitVec n) :
    a &&& (BitVec.allOnes n <<< k) = 0#n ↔ a.toNat < 2 ^ k := by
  have hle : a.toNat / 2 ^ k * 2 ^ k < 2 ^ n := (Nat.div_mul_le_self _ _).trans_lt a.isLt
  rw [← BitVec.shiftLeft_ushiftRight, BitVec.toNat_eq, BitVec.toNat_shiftLeft, BitVec.toNat_ushiftRight,
    Nat.shiftRight_eq_div_pow, Nat.shiftLeft_eq, Nat.mod_eq_of_lt hle, BitVec.toNat_ofNat, Nat.zero_mod,
    mul_eq_zero_iff_right (Nat.two_pow_pos k).ne', Nat.div_eq_zero_iff_lt (Nat.two_pow_pos k)]

/-- What the mask and match columns alone ask of a word. -/
theorem and_maskWord_eq_iff {o : Op} {w : Word} : w &&& o.maskWord = o.matchWord ↔
    opField w = o.number ∧ rsvField w = 0 ∧ bField w &&& o.bMask = 0 ∧ o.aFits (aField w).toNat = true := by
  conv_lhs => rw [← append_fields w, maskWord_eq, matchWord_eq, BitVec.and_append, BitVec.and_append,
    BitVec.and_append, BitVec.and_allOnes, BitVec.and_allOnes, append_eq_append_iff, append_eq_append_iff,
    append_eq_append_iff, and_allOnes_shiftLeft_eq_zero_iff, ← aFits_iff, and_assoc, and_assoc]
  rfl

/-- The mask's bits of operand B, with SLICE's extra condition, are R63. -/
theorem and_bMask_iff {o : Op} {b : BitVec 3} :
    (b &&& o.bMask = 0 ∧ (o ≠ .slice ∨ b.toNat ≤ 4)) ↔ o.bFits b.toNat = true := by
  cases o <;> revert b <;> decide

/-- A row of R66 is R65 for its operation. -/
theorem matchesRow_iff {o : Op} {w : Word} : o.matchesRow w = true ↔ opField w = o.number ∧ legal w = true := by
  rw [and_congr_right legal_iff_of_opField, ← and_bMask_iff]
  simp only [Op.matchesRow, Bool.and_eq_true, Bool.or_eq_true, beq_iff_eq, bne_iff_ne, decide_eq_true_iff,
    and_maskWord_eq_iff]
  tauto

/-! ### What makes a word illegal (R67) -/

theorem reservedOp_iff {w : Word} : reservedOp w ↔ opOf (opField w) = none := opOf_eq_none_iff.symm

theorem breaksB_iff {o : Op} {w : Word} (h : opField w = o.number) :
    breaksB w ↔ ¬ o.bFits (bField w).toNat = true := by
  have hb := Nat.le_of_lt_succ (bField w).isLt
  rw [bFits_iff, breaksB, h]
  cases o <;> simp [Op.number, Op.bMax, hb]

theorem breaksA_iff {o : Op} {w : Word} (h : opField w = o.number) :
    breaksA w ↔ ¬ o.aFits (aField w).toNat = true := by
  have ha := (aField w).isLt
  rw [aFits_iff, breaksA, h]
  cases o <;> simp [Op.number, Op.aWidth, ha]

/-- Operands break R62 or R63 only under an op field that names an operation. -/
theorem legal_eq_false_iff {w : Word} :
    legal w = false ↔ reservedOp w ∨ rsvField w ≠ 0 ∨ breaksA w ∨ breaksB w := by
  cases hop : opOf (opField w) with
  | none =>
    have hlegal : legal w = false := by rw [legal_eq, hop]; rfl
    exact iff_of_true hlegal (.inl (reservedOp_iff.2 hop))
  | some o =>
    have hnum := opOf_eq_some_iff.1 hop
    rw [← Bool.not_eq_true, legal_iff_of_opField hnum, breaksA_iff hnum, breaksB_iff hnum, reservedOp_iff, hop]
    simp only [reduceCtorEq, false_or]
    tauto

/-- The one effect of an illegal word (R67, R183). -/
theorem Machine.execute_of_not_legal {w : Word} {s : Machine.State} (hs : Ready s) (hw : legal w = false) :
    Machine.execute w s = .next s.setIll :=
  Machine.execute_eq_next.2 ⟨hs, .inr ⟨not_legal_iff_decode.1 hw, rfl⟩⟩

end Sys2Proof
end

section
/-! The assembler (R69): what a command line and a `.word` line emit, and that every number and so every word can be
written. -/

namespace Sys2Proof.Machine

open Sys2Proof.Stated

/-! ### The word formed from an operation and its operands -/

theorem lt_of_aFits {o : Op} {a : Nat} (h : o.aFits a = true) : a < 2 ^ 20 :=
  (aFits_iff.1 h).trans_le (Nat.pow_le_pow_right Nat.two_pos (by cases o <;> decide))

theorem lt_of_bFits {o : Op} {b : Nat} (h : o.bFits b = true) : b < 2 ^ 3 :=
  Nat.lt_succ_of_le ((bFits_iff.1 h).trans (by cases o <;> decide))

/-- Operands that fit are packed as R60 lays them out. -/
theorem assembleCommand_of_fits {o : Op} {a : BitVec 20} {b : BitVec 3} (ha : o.aFits a.toNat = true)
    (hb : o.bFits b.toNat = true) : assembleCommand o a.toNat b.toNat = .ok (packWord o.number b a) := by
  rw [assembleCommand, ha, hb, BitVec.ofNat_toNat, BitVec.ofNat_toNat, ← packWord_eq_shiftLeft_or]
  rfl

/-- All the words the assembler forms from an operation and its operands. -/
theorem assembleCommand_eq_ok {o : Op} {a b : Nat} {w : Word} (h : assembleCommand o a b = .ok w) :
    ∃ i, decode w = .ok i ∧ i.op = o ∧ i.operandA.toNat = a ∧ i.operandB.toNat = b := by
  have hfits : o.aFits a = true ∧ o.bFits b = true := by
    by_contra hmisfit
    rw [← Bool.and_eq_true] at hmisfit
    rw [assembleCommand, if_neg hmisfit] at h
    cases h
  obtain ⟨ha, hb⟩ := hfits
  obtain ⟨a, rfl⟩ : ∃ v : BitVec 20, v.toNat = a := ⟨_, BitVec.toNat_ofNatLT a (lt_of_aFits ha)⟩
  obtain ⟨b, rfl⟩ : ∃ v : BitVec 3, v.toNat = b := ⟨_, BitVec.toNat_ofNatLT b (lt_of_bFits hb)⟩
  cases (assembleCommand_of_fits ha hb).symm.trans h
  exact ⟨_, decode_packWord ha hb, op_command _ _ _, by rw [operandA_command _ ha], by rw [operandB_command _ hb]⟩

theorem assembleCommand_encode {i : Instr} (hwf : i.wellFormed = true) :
    assembleCommand i.op i.operandA.toNat i.operandB.toNat = .ok (encode i) :=
  assembleCommand_of_fits (aFits_operandA i) (bFits_operandB hwf)

/-- The operands rejected, and how. -/
theorem assembleCommand_eq_error {o : Op} {a b : Nat} {e : AsmError} :
    assembleCommand o a b = .error e ↔ (2 ^ o.aWidth ≤ a ∨ o.bMax < b) ∧ e = .doesNotFit := by
  have hmisfit : ¬ (o.aFits a && o.bFits b) = true ↔ 2 ^ o.aWidth ≤ a ∨ o.bMax < b := by
    rw [Bool.and_eq_true, aFits_iff, bFits_iff]
    omega
  rw [← hmisfit, assembleCommand]
  split
  · next h => simp [h]
  · next h => simp [h, eq_comm]

/-! ### Command lines -/

/-- What a command line says: an operation and its operands, B being 0 where none is written. -/
inductive CommandLine (line : List Char) : Op → Nat → Nat → Prop
  | one {m x : List Char} {o : Op} {a : Nat} (htokens : tokens [] line = [.text m, .text x])
      (hop : opNamed m = some o) (htwo : takesTwo o = false) (ha : numberValue x = some a) : CommandLine line o a 0
  | two {m x y : List Char} {o : Op} {a b : Nat} (htokens : tokens [] line = [.text m, .text x, .comma, .text y])
      (hop : opNamed m = some o) (htwo : takesTwo o = true) (ha : numberValue x = some a)
      (hb : numberValue y = some b) : CommandLine line o a b

/-- The directive `.word` is no mnemonic. -/
theorem ne_word_of_opNamed {m : List Char} {o : Op} (h : opNamed m = some o) : m ≠ ['.', 'w', 'o', 'r', 'd'] := by
  rintro rfl
  cases h

/-- A command line emits the word of its operation and operands. -/
theorem CommandLine.assembleLine_eq {line : List Char} {o : Op} {a b : Nat} (h : CommandLine line o a b) :
    assembleLine line = (assembleCommand o a b).map some := by
  cases h with
  | one htokens hop htwo ha =>
    simp [assembleLine, htokens, assembleOne, ha, ne_word_of_opNamed hop, hop, htwo]
  | two htokens hop htwo ha hb =>
    simp [assembleLine, htokens, assembleTwo, ha, hb, hop, htwo]

theorem CommandLine.isRawLine_eq {line : List Char} {o : Op} {a b : Nat} (h : CommandLine line o a b) :
    isRawLine line = false := by
  cases h with
  | one htokens hop | two htokens hop => simp [isRawLine, htokens, ne_word_of_opNamed hop]

theorem map_some_eq_ok {r : Except AsmError Word} {w : Word} : r.map some = .ok (some w) ↔ r = .ok w := by
  cases r <;> simp [Except.map]

/-- A line of one operand that emits a word is a command line, unless it is `.word`. -/
theorem commandLine_of_assembleOne {line m x : List Char} {w : Word} (htokens : tokens [] line = [.text m, .text x])
    (hm : m ≠ ['.', 'w', 'o', 'r', 'd']) (h : assembleOne m x = .ok w) :
    ∃ o a b, CommandLine line o a b ∧ assembleCommand o a b = .ok w := by
  unfold assembleOne at h
  split at h
  · cases h
  · next a ha =>
    rw [if_neg hm] at h
    split at h
    · cases h
    · next o hop =>
      split at h
      · cases h
      · next htwo => exact ⟨o, a, 0, .one htokens hop (Bool.eq_false_iff.2 htwo) ha, h⟩

/-- A line of two operands that emits a word is a command line. -/
theorem commandLine_of_assembleTwo {line m x y : List Char} {w : Word}
    (htokens : tokens [] line = [.text m, .text x, .comma, .text y]) (h : assembleTwo m x y = .ok w) :
    ∃ o a b, CommandLine line o a b ∧ assembleCommand o a b = .ok w := by
  unfold assembleTwo at h
  split at h
  · next a b ha hb =>
    split at h
    · cases h
    · next o hop =>
      split at h
      · next htwo => exact ⟨o, a, b, .two htokens hop htwo ha hb, h⟩
      · cases h
  · cases h

/-- All the lines that emit a word: command lines, and `.word` lines. -/
theorem commandLine_of_assembleLine {line : List Char} {w : Word} (h : assembleLine line = .ok (some w))
    (hraw : isRawLine line = false) : ∃ o a b, CommandLine line o a b ∧ assembleCommand o a b = .ok w := by
  unfold assembleLine at h
  split at h
  · cases h
  · next m x htokens =>
    have hm : m ≠ ['.', 'w', 'o', 'r', 'd'] := by simpa [isRawLine, htokens] using hraw
    exact commandLine_of_assembleOne htokens hm (map_some_eq_ok.1 h)
  · next m x y htokens => exact commandLine_of_assembleTwo htokens (map_some_eq_ok.1 h)
  · cases h

/-! ### `.word` lines -/

theorem assembleLine_word {line x : List Char} {v : Nat}
    (htokens : tokens [] line = [.text ['.', 'w', 'o', 'r', 'd'], .text x]) (hx : numberValue x = some v) :
    assembleLine line = (assembleRaw v).map some := by
  simp [assembleLine, htokens, assembleOne, hx]

theorem assembleRaw_of_lt {v : Nat} (h : v < 2 ^ 32) : assembleRaw v = .ok (BitVec.ofNat 32 v) := if_pos h

theorem assembleRaw_of_ge {v : Nat} (h : 2 ^ 32 ≤ v) : assembleRaw v = .error .doesNotFit := if_neg h.not_gt

/-! ### The pieces of a line -/

/-- The characters that end a run. -/
def separators : List Char := [';', ',', ' ', '\t']

/-- A run of characters that stands in a line as one piece. -/
structure IsText (cs : List Char) : Prop where
  ne_nil : cs ≠ []
  not_separator : ∀ c ∈ cs, c ∉ separators

/-- Reading a run leaves the rest of the line to be read. -/
theorem tokens_append {cs : List Char} (h : ∀ c ∈ cs, c ∉ separators) (run rest : List Char) :
    tokens run (cs ++ rest) = tokens (cs.reverse ++ run) rest := by
  induction cs generalizing run with
  | nil => rfl
  | cons c cs ih =>
    obtain ⟨hc, hcs⟩ := List.forall_mem_cons.1 h
    simp only [separators, List.mem_cons, List.not_mem_nil, or_false, not_or] at hc
    obtain ⟨hsemicolon, hcomma, hspace, htab⟩ := hc
    rw [List.cons_append, tokens, if_neg hsemicolon, if_neg hcomma, if_neg (not_or.2 ⟨hspace, htab⟩), ih hcs,
      List.reverse_cons, List.append_assoc, List.singleton_append]

theorem endRun_reverse {cs : List Char} (h : cs ≠ []) (rest : List Token) :
    endRun cs.reverse rest = .text cs :: rest := by
  have hne := mt List.reverse_eq_nil_iff.1 h
  unfold endRun
  split
  · next hnil => exact absurd hnil hne
  · rw [List.reverse_reverse]

theorem IsText.tokens_append {cs : List Char} (h : IsText cs) (rest : List Char) :
    tokens [] (cs ++ rest) = tokens cs.reverse rest := by
  rw [Machine.tokens_append h.not_separator, List.append_nil]

theorem IsText.tokens_eq {cs : List Char} (h : IsText cs) : tokens [] cs = [.text cs] := by
  rw [← List.append_nil cs, h.tokens_append, List.append_nil]
  exact endRun_reverse h.ne_nil []

theorem IsText.tokens_space {cs : List Char} (h : IsText cs) (rest : List Char) :
    tokens [] (cs ++ ' ' :: rest) = .text cs :: tokens [] rest := by
  rw [h.tokens_append]
  exact endRun_reverse h.ne_nil _

theorem IsText.tokens_comma {cs : List Char} (h : IsText cs) (rest : List Char) :
    tokens [] (cs ++ ',' :: rest) = .text cs :: .comma :: tokens [] rest := by
  rw [h.tokens_append]
  exact endRun_reverse h.ne_nil _

/-! ### Numbers -/

theorem digitValue_of_isDigit {c : Char} (h : c.isDigit = true) :
    digitValue c = some (c.toNat - 48) ∧ c.toNat - 48 < 10 := by
  have hrange : 48 ≤ c.toNat ∧ c.toNat ≤ 57 := Char.isDigit_iff_toNat.1 h
  exact ⟨if_pos hrange, by omega⟩

/-- A row of decimal digits has the value the library gives it. -/
theorem digitsValue_of_isDigit {cs : List Char} (h : ∀ c ∈ cs, c.isDigit = true) (acc : Nat) :
    digitsValue 10 acc cs = some (Nat.ofDigitChars 10 cs acc) := by
  induction cs generalizing acc with
  | nil => rfl
  | cons c cs ih =>
    obtain ⟨hc, hcs⟩ := List.forall_mem_cons.1 h
    obtain ⟨hvalue, hlt⟩ := digitValue_of_isDigit hc
    simp only [digitsValue, hvalue, if_pos hlt, ih hcs, Nat.ofDigitChars_cons, Nat.mul_comm acc]
    rfl

/-- Digits alone are read as decimal: the second character of `0x` is no digit. -/
theorem numberValue_of_isDigit {cs : List Char} (hne : cs ≠ []) (h : ∀ c ∈ cs, c.isDigit = true) :
    numberValue cs = digitsValue 10 0 cs := by
  have hx : 'x'.isDigit = false := by decide
  unfold numberValue
  split
  · exact absurd rfl hne
  · simp [hx] at h
  · simp [hx] at h
  · rfl

/-- A number in decimal. -/
def numeral (n : Nat) : List Char := Nat.toDigits 10 n

theorem isDigit_of_mem_numeral {n : Nat} {c : Char} (h : c ∈ numeral n) : c.isDigit = true :=
  Nat.isDigit_of_mem_toDigits (by decide) (by decide) h

theorem numeral_ne_nil (n : Nat) : numeral n ≠ [] := Nat.toDigits_ne_nil

theorem numberValue_numeral (n : Nat) : numberValue (numeral n) = some n := by
  have hdigits : ∀ c ∈ numeral n, c.isDigit = true := fun _ => isDigit_of_mem_numeral
  rw [numberValue_of_isDigit (numeral_ne_nil n) hdigits, digitsValue_of_isDigit hdigits, numeral,
    Nat.ofDigitChars_ten_toDigits]

theorem isText_numeral (n : Nat) : IsText (numeral n) where
  ne_nil := numeral_ne_nil n
  not_separator := by
    intro c hc hsep
    have hnone : ∀ c ∈ separators, c.isDigit = false := by simp [separators]
    exact absurd (isDigit_of_mem_numeral hc) (Bool.eq_false_iff.1 (hnone c hsep))

/-! ### A line for every command and for every word -/

/-- The mnemonic of an operation (R61). -/
def mnemonic : Op → List Char
  | .fwd => ['F', 'W', 'D']
  | .rev => ['R', 'E', 'V']
  | .crc12 => ['C', 'R', 'C', '1', '2']
  | .code => ['C', 'O', 'D', 'E']
  | .enc => ['E', 'N', 'C']
  | .syn => ['S', 'Y', 'N']
  | .cor => ['C', 'O', 'R']
  | .dec => ['D', 'E', 'C']
  | .slice => ['S', 'L', 'I', 'C', 'E']
  | .grid => ['G', 'R', 'I', 'D']
  | .mark => ['M', 'A', 'R', 'K']

theorem opNamed_mnemonic (o : Op) : opNamed (mnemonic o) = some o := by
  cases o <;> rfl

theorem isText_mnemonic (o : Op) : IsText (mnemonic o) where
  ne_nil := by cases o <;> simp [mnemonic]
  not_separator := by cases o <;> simp [mnemonic, separators]

theorem bMax_of_takesTwo {o : Op} (h : takesTwo o = false) : o.bMax = 0 := by
  cases o with
  | cor | slice => cases h
  | fwd | rev | crc12 | code | enc | syn | dec | grid | mark => rfl

/-- A line that writes a command (R69). -/
def commandText (o : Op) (a b : Nat) : List Char :=
  mnemonic o ++ ' ' :: if takesTwo o then numeral a ++ ',' :: numeral b else numeral a

theorem commandLine_commandText {o : Op} {b : Nat} (a : Nat) (hb : o.bFits b = true) :
    CommandLine (commandText o a b) o a b := by
  cases htwo : takesTwo o with
  | false =>
    obtain rfl : b = 0 := Nat.le_zero.1 (bMax_of_takesTwo htwo ▸ bFits_iff.1 hb)
    refine .one ?_ (opNamed_mnemonic o) htwo (numberValue_numeral a)
    rw [commandText, htwo, (isText_mnemonic o).tokens_space, if_neg Bool.false_ne_true, (isText_numeral a).tokens_eq]
  | true =>
    refine .two ?_ (opNamed_mnemonic o) htwo (numberValue_numeral a) (numberValue_numeral b)
    rw [commandText, htwo, (isText_mnemonic o).tokens_space, if_pos rfl, (isText_numeral a).tokens_comma,
      (isText_numeral b).tokens_eq]

/-- Every legal word is emitted by the line that writes its command. -/
theorem exists_line_of_legal {w : Word} (hw : legal w = true) :
    ∃ line, isRawLine line = false ∧ assembleLine line = .ok (some w) := by
  obtain ⟨i, hi⟩ := legal_iff_decode.1 hw
  have hwf := wellFormed_of_decode hi
  have hline := commandLine_commandText i.operandA.toNat (bFits_operandB hwf)
  refine ⟨_, hline.isRawLine_eq, ?_⟩
  rw [hline.assembleLine_eq, map_some_eq_ok, assembleCommand_encode hwf, encode_of_decode hi]

/-- A `.word` line. -/
def wordText (v : Nat) : List Char := ['.', 'w', 'o', 'r', 'd'] ++ ' ' :: numeral v

theorem tokens_wordText (v : Nat) :
    tokens [] (wordText v) = [.text ['.', 'w', 'o', 'r', 'd'], .text (numeral v)] := by
  have htext : IsText ['.', 'w', 'o', 'r', 'd'] := ⟨nofun, by simp [separators]⟩
  rw [wordText, htext.tokens_space, (isText_numeral v).tokens_eq]

theorem isRawLine_wordText (v : Nat) : isRawLine (wordText v) = true := by
  simp [isRawLine, tokens_wordText]

/-- Every word, legal or not, is emitted by the `.word` line of its number. -/
theorem assembleLine_wordText (w : Word) : assembleLine (wordText w.toNat) = .ok (some w) := by
  rw [assembleLine_word (tokens_wordText _) (numberValue_numeral _), map_some_eq_ok, assembleRaw_of_lt w.isLt,
    BitVec.ofNat_toNat, BitVec.setWidth_eq]

end Sys2Proof.Machine
end

section
/-! The statements of 30_encoding.md. -/

namespace Sys2Proof.Proofs

open Sys2Proof.Machine

/-- Settles O19: the decoder reads back the fields the encoder packs, and a command is its operation and operands. -/
theorem decodeInvertsEncode : Obligations.DecodeInvertsEncode :=
  fun _ => decode_encode

/-- Settles O14: a legal word decodes to a well-formed command, which is its one write; any other sets ILL. -/
theorem legalWordsRun : Obligations.LegalWordsRun := by
  constructor
  · intro w hw
    obtain ⟨i, hi⟩ := legal_iff_decode.1 hw
    obtain ⟨hop, ha, hb, -⟩ := fields_of_decode hi
    exact ⟨i, hi, hop, ha, hb, fun s => ⟨execute_of_ok hi, fun hs =>
      commandsWriteResAndInvOnly s i hs (wellFormed_of_decode hi)⟩⟩
  · intro w hw
    obtain ⟨why, hwhy⟩ := not_legal_iff_decode.1 hw
    exact ⟨why, hwhy, fun s => ⟨execute_of_error hwhy, fun hs => execute_of_not_legal hs hw⟩⟩

/-- Settles O15: a row asks field by field what R65 asks, and the op field is compared whole. -/
theorem matchMaskTableDecides : Obligations.MatchMaskTableDecides := by
  refine ⟨fun o w => matchesRow_iff.trans exists_decode_op_iff.symm, fun o o' w h h' => number_injective ?_⟩
  obtain ⟨hop, -⟩ := and_maskWord_eq_iff.1 h
  obtain ⟨hop', -⟩ := and_maskWord_eq_iff.1 h'
  exact hop.symm.trans hop'

/-- Settles O17. -/
theorem illegalWordsAreThese : Obligations.IllegalWordsAreThese :=
  ⟨fun _ => legal_eq_false_iff, by decide, fun _ _ => execute_of_not_legal⟩

/-- Settles O20. -/
theorem encodeInvertsDecode : Obligations.EncodeInvertsDecode :=
  fun _ _ h => ⟨wellFormed_of_decode h, encode_of_decode h⟩

/-- Settles O22: the formula of R69 is R60's layout, which the decoder reads back. -/
theorem commandWordsAreFormedFromOperands : Obligations.CommandWordsAreFormedFromOperands :=
  ⟨fun _ _ _ _ => assembleCommand_eq_ok, fun _ => assembleCommand_encode,
    fun _ _ _ _ h => (assembleCommand_eq_error.1 h).1⟩

/-- Settles O53: the lines other than `.word` that emit a word are the command lines, and every command and every number
can be written. -/
theorem assemblerLinesEmitTheirWords : Obligations.AssemblerLinesEmitTheirWords := by
  refine ⟨fun w => ⟨exists_line_of_legal, ?_⟩, ?_, ?_, ?_, ?_, ?_⟩
  · rintro ⟨line, hraw, h⟩
    obtain ⟨o, a, b, -, hword⟩ := commandLine_of_assembleLine h hraw
    obtain ⟨i, hi, -⟩ := assembleCommand_eq_ok hword
    exact legal_iff_decode.2 ⟨i, hi⟩
  · intro line w h hraw
    obtain ⟨o, a, b, hline, hword⟩ := commandLine_of_assembleLine h hraw
    obtain ⟨i, hi, rfl, hA, hB⟩ := assembleCommand_eq_ok hword
    cases hline with
    | one htokens hop htwo ha =>
      exact ⟨i, _, _, _, hi, hop, ha, hA, .inl ⟨htwo, BitVec.eq_of_toNat_eq hB, htokens⟩⟩
    | two htokens hop htwo ha hb => exact ⟨i, _, _, _, hi, hop, ha, hA, .inr ⟨htwo, _, hB ▸ hb, htokens⟩⟩
  · intro line x v htokens hx
    rw [assembleLine_word htokens hx]
    exact ⟨fun h => by rw [assembleRaw_of_lt h]; rfl, fun h => by rw [assembleRaw_of_ge h]; rfl⟩
  · exact fun w => ⟨_, isRawLine_wordText w.toNat, assembleLine_wordText w⟩
  · intro line m x o a htokens hop htwo ha hwide
    rw [(CommandLine.one htokens hop htwo ha).assembleLine_eq, assembleCommand_eq_error.2 ⟨.inl hwide, rfl⟩]
    rfl
  · intro line m x y o a b htokens hop htwo ha hb hmisfit
    rw [(CommandLine.two htokens hop htwo ha hb).assembleLine_eq, assembleCommand_eq_error.2 ⟨hmisfit, rfl⟩]
    rfl

/-- Settles O11. -/
theorem stepRunsDecodedCommand : Obligations.StepRunsDecodedCommand := by
  intro s w i rest e hw
  rw [step_of_cons e]
  exact execute_of_ok hw

/-- Settles O12: the word is written first, and taking it gives back the sequence before it. -/
theorem placedWordRunsNext : Obligations.PlacedWordRunsNext := by
  intro s w i h
  exact stepRunsDecodedCommand _ (tableWord 32 w) i s.todo rfl (decode_of_decodeTableWord h)

/-- Settles O21. -/
theorem knownWordsDecode : Obligations.KnownWordsDecode :=
  ⟨rfl, rfl, rfl, rfl, rfl, rfl, rfl, rfl, rfl, rfl, rfl⟩

/-- Settles O48. -/
theorem illFormedSliceIsIllegal : Obligations.IllFormedSliceIsIllegal := by
  intro s m j hs hj
  rw [exec_slice_of_gt s m hj]
  exact raiseIllegal_of_ready _ _ hs

end Sys2Proof.Proofs
end

section
/-! The code table (R80, R81): the position of a byte among the non-blacklisted ones, which FWD_ROM gives and at which
REV_ROM holds the byte. -/

namespace Sys2Proof.Machine

open Sys2Proof.Stated

/-! ### Positions among the non-blacklisted bytes -/

variable {bl : Blacklist} {r x : Byte}

/-- The bytes below `r`, as the model takes them and as `countBelow` counts them. -/
theorem take_allBytes (r : Byte) : allBytes.take r.toNat = (List.range r.toNat).map (BitVec.ofNat 8) := by
  rw [allBytes, ← List.map_take, List.take_range, Nat.min_eq_left r.isLt.le]

theorem length_filter_take_allBytes (bl : Blacklist) (r : Byte) :
    ((allBytes.take r.toNat).filter fun x => !blacklisted bl x).length = countBelow bl r := by
  rw [take_allBytes, ← List.countP_eq_length_filter, List.countP_map]
  rfl

/-- A byte stands in the list of all bytes between those below it and those above it. -/
theorem allBytes_eq_append_cons (r : Byte) :
    allBytes = allBytes.take r.toNat ++ r :: allBytes.drop (r.toNat + 1) := by
  have hlt : r.toNat < allBytes.length := by simpa [allBytes] using r.isLt
  have hget : allBytes[r.toNat] = r := by simp [allBytes]
  calc allBytes = allBytes.take r.toNat ++ allBytes.drop r.toNat := (List.take_append_drop _ _).symm
    _ = _ := by rw [List.drop_eq_getElem_cons hlt, hget]

/-- R80: a non-blacklisted byte's position among them is the number of those below it. -/
theorem getElem?_nonBlacklisted_countBelow (h : blacklisted bl r = false) :
    (nonBlacklisted bl)[countBelow bl r]? = some r := by
  rw [nonBlacklisted, allBytes_eq_append_cons r, List.filter_append, List.filter_cons_of_pos (by rw [h]; rfl),
    ← length_filter_take_allBytes, List.getElem?_append_right (Nat.le_refl _), Nat.sub_self, List.getElem?_cons_zero]

/-- R81: no other position holds that byte, since the list has no repetitions. -/
theorem getElem?_nonBlacklisted_eq_some {k : Nat} :
    (nonBlacklisted bl)[k]? = some r ↔ blacklisted bl r = false ∧ countBelow bl r = k := by
  constructor
  · intro hk
    have hr : blacklisted bl r = false := by simpa using (List.mem_filter.1 (List.mem_of_getElem? hk)).2
    obtain ⟨hlt, -⟩ := List.getElem?_eq_some_iff.1 hk
    have hnodup : (nonBlacklisted bl).Nodup := nodup_allBytes.filter _
    exact ⟨hr, ((List.getElem?_inj hlt hnodup).1 (hk.trans (getElem?_nonBlacklisted_countBelow hr).symm)).symm⟩
  · rintro ⟨hr, rfl⟩
    exact getElem?_nonBlacklisted_countBelow hr

/-- R83: no MarkerId is above 228. -/
theorem countBelow_le (h : blacklisted bl r = false) : countBelow bl r ≤ 228 := by
  obtain ⟨hlt, -⟩ := List.getElem?_eq_some_iff.1 (getElem?_nonBlacklisted_countBelow h)
  rw [nonBlacklisted_length] at hlt
  exact Nat.le_of_lt_succ hlt

theorem countBelow_mono (h : r.toNat ≤ x.toNat) : countBelow bl r ≤ countBelow bl x :=
  (List.range_sublist.2 h).countP_le

/-! ### The two arrays -/

variable {rom : Rom} {i j : Byte}

/-- R80: FWD_ROM holds a non-blacklisted byte's position, which fits in a byte. -/
theorem romFwd_of_not_blacklisted (h : blacklisted rom.blacklist r = false) :
    romFwd rom r = some (BitVec.ofNat 8 (countBelow rom.blacklist r)) := by
  rw [romFwd, h, length_filter_take_allBytes]
  rfl

theorem toNat_ofNat_countBelow (h : blacklisted bl r = false) :
    (BitVec.ofNat 8 (countBelow bl r)).toNat = countBelow bl r :=
  Nat.mod_eq_of_lt ((countBelow_le h).trans_lt (by decide))

/-- All a read of the forward ROM can give: an identifier exactly for a byte that is not blacklisted (R80). -/
theorem romFwd_eq_some :
    romFwd rom r = some i ↔ blacklisted rom.blacklist r = false ∧ countBelow rom.blacklist r = i.toNat := by
  cases h : blacklisted rom.blacklist r with
  | true => simp [romFwd_eq_none.2 h]
  | false => simp [romFwd_of_not_blacklisted h, BitVec.toNat_eq, toNat_ofNat_countBelow h]

theorem revLookup_eq_getElem? (rom : Rom) (i : Byte) : revLookup rom i = (nonBlacklisted rom.blacklist)[i.toNat]? := by
  have hlen := nonBlacklisted_length rom.blacklist
  by_cases h : i.toNat ≤ 228
  · rw [revLookup_of_le h, List.getElem?_eq_getElem (by omega)]
    rfl
  · rw [revLookup_of_gt (by omega), List.getElem?_eq_none (by omega)]

/-- R81: the reverse lookup is the inverse of FWD_ROM. -/
theorem revLookup_eq_some : revLookup rom i = some r ↔ romFwd rom r = some i := by
  rw [revLookup_eq_getElem?, getElem?_nonBlacklisted_eq_some, romFwd_eq_some]

/-- R81: REV_ROM is the inverse of FWD_ROM. -/
theorem romRev_eq_ok_iff_romFwd : romRev rom i = .ok r ↔ romFwd rom r = some i := by
  rw [← revLookup_eq_some, romRev_eq_ok, revLookup]
  simp

/-- R81: every MarkerId is the position of a byte. -/
theorem exists_romFwd_eq_some (h : i.toNat ≤ 228) : ∃ r, romFwd rom r = some i :=
  ⟨_, revLookup_eq_some.1 (revLookup_of_le h)⟩

/-- R81: no two bytes have the same identifier. -/
theorem eq_of_romFwd_eq {r' : Byte} (h : romFwd rom r = some i) (h' : romFwd rom r' = some i) : r' = r :=
  Option.some_inj.1 ((revLookup_eq_some.2 h').symm.trans (revLookup_eq_some.2 h))

/-- R81: a larger identifier belongs to a larger byte. -/
theorem lt_of_romFwd_lt {r' : Byte} (h : romFwd rom r = some i) (h' : romFwd rom r' = some j)
    (hij : i.toNat < j.toNat) : r.toNat < r'.toNat := by
  obtain ⟨-, hi⟩ := romFwd_eq_some.1 h
  obtain ⟨-, hj⟩ := romFwd_eq_some.1 h'
  rw [← hi, ← hj] at hij
  exact Nat.lt_of_not_le fun hle => hij.not_ge (countBelow_mono hle)

/-- R84: no byte that has an identifier is above that of 228. -/
theorem le_of_romFwd_eq_228 (h : romFwd rom r = some 228) (hx : blacklisted rom.blacklist x = false) :
    x.toNat ≤ r.toNat := by
  have hfwd := romFwd_of_not_blacklisted hx
  have hle := countBelow_le hx
  rw [← toNat_ofNat_countBelow hx] at hle
  rcases hle.lt_or_eq with hlt | heq
  · exact (lt_of_romFwd_lt hfwd h hlt).le
  · rw [BitVec.eq_of_toNat_eq (y := 228) heq] at hfwd
    rw [eq_of_romFwd_eq h hfwd]

/-- R84: 255 is blacklisted, so no identifier is its. -/
theorem toNat_le_of_romFwd (h : romFwd rom r = some i) : r.toNat ≤ 254 := by
  obtain ⟨hr, -⟩ := romFwd_eq_some.1 h
  have hne : r ≠ 255 := by
    rintro rfl
    rw [blacklisted_of_mem_listedMembers (by decide)] at hr
    exact Bool.noConfusion hr
  bv_omega

theorem romFwd_zero (rom : Rom) : romFwd rom 0 = some 0 :=
  romFwd_eq_some.2 ⟨blacklisted_zero _, rfl⟩

/-! ### FWD and REV (R83, R84) -/

variable {s : State}

theorem writeResult_ofLookup_some (s : State) (v : Byte) :
    s.writeResult (.ofLookup zext36 (some v)) = withValue s v.toNat := by
  rw [withValue, BitVec.ofNat_toNat]
  rfl

theorem exec_fwd_of_romFwd (hs : Ready s) (h : romFwd s.rom r = some i) :
    exec (.fwd r) s = .next (withValue s i.toNat) := by
  rw [exec_of_ready s hs rfl, commandResult, h, writeResult_ofLookup_some]

theorem exec_rev_of_romFwd (hs : Ready s) (h : romFwd s.rom r = some i) :
    exec (.rev i) s = .next (withValue s r.toNat) := by
  rw [exec_of_ready s hs rfl, commandResult, revLookup_eq_some.2 h, writeResult_ofLookup_some]

theorem exec_fwd_of_blacklisted (hs : Ready s) (h : blacklisted s.rom.blacklist r = true) :
    exec (.fwd r) s = .next (withInvalid s) :=
  exec_of_inv hs rfl (inv_commandResult_iff.2 (.inl ⟨r, rfl, h⟩))

theorem exec_rev_of_gt (hs : Ready s) (h : 228 < i.toNat) : exec (.rev i) s = .next (withInvalid s) :=
  exec_of_inv hs rfl (inv_commandResult_iff.2 (.inr (.inl ⟨i, rfl, h⟩)))

/-! ### The reading BL_LOW (R87) -/

/-- R87's reading, in the words of the statement that has it as a hypothesis. -/
def ReadsBlLow (bl : Blacklist) : Prop := ∀ r : Byte, r.toNat ≤ 9 → (blacklisted bl r = true ↔ r ∈ [2, 3, 8, 9])

/-- The number of bytes below `r` other than 2, 3, 8 and 9. -/
def lowPosition (r : Byte) : Nat :=
  (List.range r.toNat).countP fun x => BitVec.ofNat 8 x ∉ ([2, 3, 8, 9] : List Byte)

theorem ReadsBlLow.countBelow_eq (h : ReadsBlLow bl) (hr : r.toNat ≤ 9) : countBelow bl r = lowPosition r := by
  refine List.countP_congr fun x hx => ?_
  have hlt := List.mem_range.1 hx
  have hx9 : (BitVec.ofNat 8 x).toNat ≤ 9 := (Nat.mod_le _ _).trans (by omega)
  rw [Bool.not_eq_true', ← Bool.not_eq_true, h _ hx9, decide_eq_true_iff]

/-- R87: the identifiers of the low bytes. -/
theorem ReadsBlLow.romFwd_eq (h : ReadsBlLow rom.blacklist) (hr : r.toNat ≤ 9) (hmem : r ∉ [2, 3, 8, 9])
    (hi : lowPosition r = i.toNat) : romFwd rom r = some i := by
  refine romFwd_eq_some.2 ⟨?_, (h.countBelow_eq hr).trans hi⟩
  rwa [← Bool.not_eq_true, h r hr]

end Sys2Proof.Machine
end

section
/-! A command's word as its row's match word (R66) with the operand in the low bits. -/

namespace Sys2Proof

/-- R61, R66: where operand B is 0, the word of a command is its row's match word with operand A, of any width up to 20,
in the low bits. -/
theorem decode_matchWord_or {i : Instr} {n : Nat} {a : BitVec n} (hn : n ≤ 20) (hwf : i.wellFormed = true)
    (ha : i.operandA = a.setWidth 20) (hb : i.operandB = 0) :
    decode (i.op.matchWord ||| a.setWidth 32) = .ok i := by
  have hmatch : i.op.matchWord = packWord i.op.number 0 0 := matchWord_eq i.op
  have hword : i.op.matchWord ||| a.setWidth 32 = encode i := by
    rw [encode, hmatch, packWord_eq_shiftLeft_or, packWord_eq_shiftLeft_or, ha, hb,
      BitVec.setWidth_setWidth fun h => hn.not_gt h.1]
    simp
  rw [hword, decode_encode hwf]

end Sys2Proof
end

section
/-! The statements of 40_codetable.md. -/

namespace Sys2Proof.Proofs

open Sys2Proof.Machine

/-- Settles O29. -/
theorem fwdReturnsThePosition : Obligations.FwdReturnsThePosition := by
  intro s r hs
  refine ⟨exec_fwd_of_blacklisted hs, fun hr => ⟨?_, countBelow_le hr⟩, exec_fwd_of_romFwd hs (romFwd_zero _),
    fun hr => exec_fwd_of_blacklisted hs (blacklisted_of_mem_listedMembers hr), ?_⟩
  · rw [exec_fwd_of_romFwd hs (romFwd_of_not_blacklisted hr), toNat_ofNat_countBelow hr]
  · exact decode_matchWord_or (i := .fwd r) (a := r) (by decide) rfl rfl rfl

/-- Settles O30: REV undoes FWD, and FWD keeps the order of the bytes. -/
theorem revReturnsTheByteAtThePosition : Obligations.RevReturnsTheByteAtThePosition := by
  intro s i hs
  refine ⟨exec_rev_of_gt hs, ?_, exec_rev_of_romFwd hs (romFwd_zero _), ?_, ?_⟩
  · intro hi
    obtain ⟨r, hfwd⟩ := exists_romFwd_eq_some (rom := s.rom) hi
    obtain ⟨hr, hcount⟩ := romFwd_eq_some.1 hfwd
    exact ⟨r, hr, hcount, exec_rev_of_romFwd hs hfwd⟩
  · obtain ⟨r, hfwd⟩ := exists_romFwd_eq_some (rom := s.rom) (i := 228) (by decide)
    exact ⟨r, toNat_le_of_romFwd hfwd, exec_rev_of_romFwd hs hfwd, fun _ => le_of_romFwd_eq_228 hfwd⟩
  · exact decode_matchWord_or (i := .rev i) (a := i) (by decide) rfl rfl rfl

/-- Settles O31. -/
theorem reverseTableIsTheInverse : Obligations.ReverseTableIsTheInverse := by
  refine fun rom => ⟨fun i hi => ?_, fun i j r r' hij h h' => ?_⟩
  · obtain ⟨r, hfwd⟩ := exists_romFwd_eq_some (rom := rom) hi
    obtain ⟨hr, -⟩ := romFwd_eq_some.1 hfwd
    exact ⟨r, romRev_eq_ok_iff_romFwd.2 hfwd, ⟨hr, hfwd⟩, fun r' _ => eq_of_romFwd_eq hfwd⟩
  · exact lt_of_romFwd_lt (romRev_eq_ok_iff_romFwd.1 h) (romRev_eq_ok_iff_romFwd.1 h') hij

/-- Settles O32. -/
theorem lookupsAreInverse : Obligations.LookupsAreInverse := by
  refine fun rom => ⟨fun i hi => ?_, fun r hr => ?_⟩
  · obtain ⟨r, hfwd⟩ := exists_romFwd_eq_some (rom := rom) hi
    exact ⟨r, romRev_eq_ok_iff_romFwd.2 hfwd, hfwd⟩
  · have hfwd := romFwd_of_not_blacklisted hr
    exact ⟨_, hfwd, romRev_eq_ok_iff_romFwd.2 hfwd⟩

/-- Settles O34: 0 has the identifier 0; the other bytes are listed members, the other identifiers above 228. -/
theorem forcedLookupValues : Obligations.ForcedLookupValues := by
  intro s hs
  have listed {r : Byte} (hr : r ∈ listedMembers) : exec (.fwd r) s = .next (Stated.withInvalid s) :=
    exec_fwd_of_blacklisted hs (blacklisted_of_mem_listedMembers hr)
  exact ⟨exec_fwd_of_romFwd hs (romFwd_zero _), listed (by decide), listed (by decide), listed (by decide),
    listed (by decide), listed (by decide), exec_rev_of_romFwd hs (romFwd_zero _), exec_rev_of_gt hs (by decide),
    exec_rev_of_gt hs (by decide)⟩

/-- Settles O35: under BL_LOW five bytes have known identifiers, and each gives a value of FWD and one of REV. -/
theorem lookupValuesUnderBlLow : Obligations.LookupValuesUnderBlLow := by
  intro s hs hlow
  have low {r i : Byte} := ReadsBlLow.romFwd_eq (rom := s.rom) (r := r) (i := i) hlow
  have h1 : romFwd s.rom 1 = some 1 := low (by decide) (by decide) rfl
  have h4 : romFwd s.rom 4 = some 2 := low (by decide) (by decide) rfl
  have h5 : romFwd s.rom 5 = some 3 := low (by decide) (by decide) rfl
  have h6 : romFwd s.rom 6 = some 4 := low (by decide) (by decide) rfl
  have h7 : romFwd s.rom 7 = some 5 := low (by decide) (by decide) rfl
  exact ⟨exec_fwd_of_romFwd hs h1, exec_fwd_of_romFwd hs h4, exec_fwd_of_romFwd hs h5, exec_fwd_of_romFwd hs h6,
    exec_fwd_of_romFwd hs h7, exec_rev_of_romFwd hs h1, exec_rev_of_romFwd hs h4, exec_rev_of_romFwd hs h5,
    exec_rev_of_romFwd hs h6, exec_rev_of_romFwd hs h7⟩

end Sys2Proof.Proofs
end

section
/-! The two register forms of the CRC, each the other read backwards (R101), and linearity of the checksum (R103). -/

namespace Sys2Proof.Machine

/-! ### A value switched by a bit -/

/-- The product of a value with one coefficient over GF(2): what goes into a register when the feedback bit is `c`. -/
def gated {n : Nat} (c : Bool) (v : BitVec n) : BitVec n := if c then v else 0

theorem gated_xor {n : Nat} (c d : Bool) (v : BitVec n) : gated (c ^^ d) v = gated c v ^^^ gated d v := by
  cases c <;> cases d <;> simp [gated]

theorem gated_shiftLeft {n : Nat} (c : Bool) (v : BitVec n) (k : Nat) : gated c v <<< k = gated c (v <<< k) := by
  cases c <;> simp [gated]

theorem getLsbD_gated {n : Nat} (c : Bool) (v : BitVec n) (k : Nat) :
    (gated c v).getLsbD k = (c && v.getLsbD k) := by
  cases c <;> simp [gated]

/-! ### bitrev12 -/

theorem getLsbD_bitrev12 (v : Checksum) {k : Nat} (hk : k < 12) : (bitrev12 v).getLsbD k = v.getLsbD (11 - k) := by
  rw [bitrev12, getLsbD_packBits]
  simp [hk]

@[simp] theorem bitrev12_bitrev12 (v : Checksum) : bitrev12 (bitrev12 v) = v := by
  refine BitVec.eq_of_getLsbD_eq fun k hk => ?_
  rw [getLsbD_bitrev12 _ hk, getLsbD_bitrev12 _ (by omega), Nat.sub_sub_self (by omega)]

theorem bitrev12_injective : Function.Injective bitrev12 :=
  Function.LeftInverse.injective bitrev12_bitrev12

theorem bitrev12_xor (v w : Checksum) : bitrev12 (v ^^^ w) = bitrev12 v ^^^ bitrev12 w := by
  refine BitVec.eq_of_getLsbD_eq fun k hk => ?_
  rw [BitVec.getLsbD_xor, getLsbD_bitrev12 _ hk, getLsbD_bitrev12 _ hk, getLsbD_bitrev12 _ hk, BitVec.getLsbD_xor]

theorem bitrev12_ushiftRight_one (v : Checksum) : bitrev12 (v >>> 1) = bitrev12 v <<< 1 := by
  refine BitVec.eq_of_getLsbD_eq fun k hk => ?_
  rw [getLsbD_bitrev12 _ hk, BitVec.getLsbD_ushiftRight, BitVec.getLsbD_shiftLeft]
  cases k with
  | zero => exact v.getLsbD_of_ge _ (Nat.le_refl 12)
  | succ k =>
    rw [Nat.add_sub_cancel, getLsbD_bitrev12 _ (by omega), show 1 + (11 - (k + 1)) = 11 - k by omega]
    simp [hk]

/-! ### The two register forms (R101) -/

/-- One turn of the right-shifting register, read backwards, is one turn of the left-shifting one: 0xF01 is 0x80F
reversed, and bit 0 is bit 11. -/
theorem bitrev12_crcTurn (reg : Checksum) (bit : Bool) :
    bitrev12 (crcTurn reg bit) = crcTurnLeft (bitrev12 reg) bit := by
  have hpoly : bitrev12 0xF01 = 0x80F := by decide
  rw [crcTurn, crcTurnLeft, getLsbD_bitrev12 _ (by decide)]
  split
  · rw [bitrev12_xor, bitrev12_ushiftRight_one, hpoly]
  · exact bitrev12_ushiftRight_one reg

/-- R101's branch on the feedback bit as one sum. -/
theorem crcTurnLeft_eq (reg : Checksum) (bit : Bool) :
    crcTurnLeft reg bit = reg <<< 1 ^^^ gated (reg.getLsbD 11 ^^ bit) 0x80F := by
  unfold crcTurnLeft gated
  split <;> simp

theorem bitrev12_crc12Reflected (x : Byte) : bitrev12 (crc12Reflected x) = crc12ShiftLeft x :=
  (List.foldl_hom bitrev12 fun reg bit => (bitrev12_crcTurn reg bit).symm).symm

/-- R101: the setting CRC12_REFOUT = true reads the left-shifting register backwards, false reads it as it is. -/
theorem checksum12_eq (refout : Bool) (r : Byte) :
    checksum12 refout r = if refout then bitrev12 (crc12ShiftLeft (r + 1)) else crc12ShiftLeft (r + 1) := by
  rw [checksum12, ← bitrev12_crc12Reflected, bitrev12_bitrev12]

/-! ### Linearity (R103) -/

theorem crcTurnLeft_xor (a b : Checksum) (p q : Bool) :
    crcTurnLeft (a ^^^ b) (p ^^ q) = crcTurnLeft a p ^^^ crcTurnLeft b q := by
  have hfb : ((a ^^^ b).getLsbD 11 ^^ (p ^^ q)) = ((a.getLsbD 11 ^^ p) ^^ (b.getLsbD 11 ^^ q)) := by
    rw [BitVec.getLsbD_xor, Bool.xor_assoc, Bool.xor_assoc, Bool.xor_left_comm p]
  rw [crcTurnLeft_eq, crcTurnLeft_eq, crcTurnLeft_eq, hfb, gated_xor, BitVec.shiftLeft_xor_distrib]
  ac_rfl

theorem crc12ShiftLeft_xor (x y : Byte) : crc12ShiftLeft (x ^^^ y) = crc12ShiftLeft x ^^^ crc12ShiftLeft y := by
  have hfold := List.foldl_hom₂ (List.range 8) (fun a b : Checksum => a ^^^ b)
    (fun a k => crcTurnLeft a (x.getLsbD k)) (fun b k => crcTurnLeft b (y.getLsbD k))
    (fun c k => crcTurnLeft c ((x ^^^ y).getLsbD k)) 0 0
    fun a b k => by rw [BitVec.getLsbD_xor, crcTurnLeft_xor]
  simp only [crc12ShiftLeft, messageBits, List.foldl_map]
  exact hfold

theorem checksum12_xor (refout : Bool) {r r1 r2 : Byte} (h : r + 1 = (r1 + 1) ^^^ (r2 + 1)) :
    checksum12 refout r = checksum12 refout r1 ^^^ checksum12 refout r2 := by
  rw [checksum12_eq, checksum12_eq, checksum12_eq, h, crc12ShiftLeft_xor]
  cases refout with
  | true => exact bitrev12_xor _ _
  | false => rfl

theorem checksum12_255 (refout : Bool) : checksum12 refout 255 = 0 := by
  cases refout <;> rfl

end Sys2Proof.Machine
end

section
/-! The checksum as polynomial division over GF(2) (R100): the laws of `polyMul`, and the quotient and remainder that the
left-shifting register computes bit by bit. -/

namespace Sys2Proof.Machine

open Sys2Proof.Stated

/-! ### Products over GF(2) -/

/-- The product as a sum of shifted copies of `g`. -/
theorem polyMul_eq (q : Byte) (g : BitVec 20) :
    polyMul q g = (List.range 8).foldl (fun acc k => acc ^^^ gated (q.getLsbD k) (g <<< k)) 0 := by
  refine List.foldl_ext _ _ _ fun acc k _ => ?_
  unfold gated
  split <;> simp

theorem polyMul_xor (q q' : Byte) (g : BitVec 20) : polyMul (q ^^^ q') g = polyMul q g ^^^ polyMul q' g := by
  have hfold := List.foldl_hom₂ (List.range 8) (fun a b : BitVec 20 => a ^^^ b)
    (fun a k => a ^^^ gated (q.getLsbD k) (g <<< k)) (fun b k => b ^^^ gated (q'.getLsbD k) (g <<< k))
    (fun c k => c ^^^ gated ((q ^^^ q').getLsbD k) (g <<< k)) 0 0
    fun a b k => by
      rw [BitVec.getLsbD_xor, gated_xor]
      ac_rfl
  rw [polyMul_eq, polyMul_eq, polyMul_eq]
  exact hfold

/-- Multiplying by x, where the quotient's degree leaves room for it. -/
theorem polyMul_shiftLeft_one {q : Byte} (hq : q.getLsbD 7 = false) (g : BitVec 20) :
    polyMul (q <<< 1) g = polyMul q g <<< 1 := by
  have hrange : List.range 8 = [0, 1, 2, 3, 4, 5, 6, 7] := rfl
  simp only [polyMul_eq, hrange, List.foldl_cons, List.foldl_nil, BitVec.shiftLeft_xor_distrib, gated_shiftLeft,
    ← BitVec.shiftLeft_add, hq]
  simp [gated]

theorem polyMul_gated_one (c : Bool) (g : BitVec 20) : polyMul (gated c 1) g = gated c g := by
  cases c <;> simp [polyMul, List.range_succ, gated]

/-- The coefficient of x^i in a product. -/
theorem getLsbD_polyMul (q : Byte) (g : BitVec 20) (i : Nat) : (polyMul q g).getLsbD i =
    (List.range 8).foldl (fun c k => c ^^ (q.getLsbD k && (g <<< k).getLsbD i)) false := by
  have hfold := List.foldl_hom (l := List.range 8) (init := 0) (fun p : BitVec 20 => p.getLsbD i)
    (g₁ := fun acc k => acc ^^^ gated (q.getLsbD k) (g <<< k))
    (g₂ := fun c k => c ^^ (q.getLsbD k && (g <<< k).getLsbD i))
    fun acc k => by rw [BitVec.getLsbD_xor, getLsbD_gated]
  rw [polyMul_eq, ← hfold]
  exact congrArg (fun c => List.foldl _ c _) BitVec.getLsbD_zero

/-- Where the lower coefficients of `q` are 0 and `g` has a constant term, the product's coefficient is that of `q`. -/
theorem getLsbD_polyMul_of_low {q : Byte} {g : BitVec 20} (hg : g.getLsbD 0 = true) {i : Nat} (hi : i < 8)
    (hlow : ∀ j < i, q.getLsbD j = false) : (polyMul q g).getLsbD i = q.getLsbD i := by
  have hterm (k : Nat) : (q.getLsbD k && (g <<< k).getLsbD i) = (decide (k = i) && q.getLsbD i) := by
    rw [BitVec.getLsbD_shiftLeft]
    rcases Nat.lt_trichotomy k i with hk | rfl | hk
    · simp [hlow k hk, hk.ne]
    · simp [hg, show k < 20 by omega]
    · simp [hk, hk.ne']
  have hsum (n : Nat) : (List.range n).foldl (fun c k => c ^^ (q.getLsbD k && (g <<< k).getLsbD i)) false =
      (decide (i < n) && q.getLsbD i) := by
    induction n with
    | zero => rfl
    | succ n ih =>
      rw [List.range_succ, List.foldl_append, ih, List.foldl_cons, List.foldl_nil, hterm]
      rcases Nat.lt_trichotomy i n with h | rfl | h
      · simp [h, h.ne', Nat.lt_succ_of_lt h]
      · simp
      · simp [h.ne, h.not_gt, show ¬ i < n + 1 by omega]
  rw [getLsbD_polyMul, hsum, decide_eq_true hi, Bool.true_and]

/-- R103 (c): a product with a polynomial that has a constant term is 0 in its low eight coefficients only for 0. -/
theorem eq_zero_of_polyMul_low {q : Byte} {g : BitVec 20} (hg : g.getLsbD 0 = true)
    (hlow : ∀ i < 8, (polyMul q g).getLsbD i = false) : q = 0 := by
  have hbit : ∀ i < 8, q.getLsbD i = false := by
    intro i
    induction i using Nat.strong_induction_on with
    | _ i ih =>
      intro hi
      rw [← getLsbD_polyMul_of_low hg hi fun j hj => ih j hj (hj.trans hi), hlow i hi]
  refine BitVec.eq_of_getLsbD_eq fun i hi => ?_
  rw [hbit i hi]
  exact BitVec.getLsbD_zero.symm

/-! ### The register as a remainder (R100) -/

theorem packBits_cons (w : Nat) (b : Bool) (bs : List Bool) :
    packBits w (b :: bs) = packBits w bs <<< 1 ^^^ gated b 1 := by
  refine BitVec.eq_of_getLsbD_eq fun i hi => ?_
  rw [BitVec.getLsbD_xor, BitVec.getLsbD_shiftLeft, getLsbD_packBits, getLsbD_packBits, getLsbD_gated]
  cases i with
  | zero => simp [hi]
  | succ i => simp [hi, Nat.lt_of_succ_lt hi]

/-- A turn without its feedback: the register times x, its leading coefficient now that of x^12. -/
theorem setWidth_shiftLeft_one (reg : Checksum) :
    reg.setWidth 20 <<< 1 = gated (reg.getLsbD 11) 0x1000 ^^^ (reg <<< 1).setWidth 20 := by
  have hlead : (0x1000 : BitVec 20) = BitVec.twoPow 20 12 := rfl
  refine BitVec.eq_of_getLsbD_eq fun i hi => ?_
  rw [BitVec.getLsbD_xor, getLsbD_gated, BitVec.getLsbD_shiftLeft, BitVec.getLsbD_setWidth, BitVec.getLsbD_setWidth,
    BitVec.getLsbD_shiftLeft, hlead, BitVec.getLsbD_twoPow]
  rcases Nat.lt_trichotomy i 12 with h | rfl | h
  · simp [hi, h, h.ne', show i - 1 < 20 by omega]
  · simp
  · simp [h.ne, h.not_gt, reg.getLsbD_of_ge (i - 1) (by omega)]

/-- One turn of the register: times x, the next message bit at x^12, and the generator taken off where the leading
coefficient is 1. -/
theorem setWidth_crcTurnLeft (reg : Checksum) (bit : Bool) :
    reg.setWidth 20 <<< 1 ^^^ gated bit 0x1000 =
      gated (reg.getLsbD 11 ^^ bit) 0x180F ^^^ (crcTurnLeft reg bit).setWidth 20 := by
  have hpoly (fb : Bool) : gated fb 0x1000 = gated fb 0x180F ^^^ (gated fb (0x80F : Checksum)).setWidth 20 := by
    cases fb <;> rfl
  have hlead := gated_xor (reg.getLsbD 11) bit (0x1000 : BitVec 20)
  rw [hpoly] at hlead
  rw [setWidth_shiftLeft_one, crcTurnLeft_eq, BitVec.setWidth_xor, BitVec.xor_comm (BitVec.setWidth _ _),
    ← BitVec.xor_assoc, hlead]
  ac_rfl

/-- The message polynomial lists the fed bits from the last one upward. -/
theorem messagePoly_eq (x : Byte) : messagePoly x = packBits 20 (messageBits x).reverse := rfl

/-- The invariant of the loop: after each bit the register is the remainder of the bits fed so far, times x^12. The
quotient's coefficients are the feedback bits; it has as many as bits were fed, so it can be multiplied by x once more. -/
theorem foldl_crcTurnLeft_isRemainder (bits : List Bool) (hlen : bits.length ≤ 8) :
    ∃ q : Byte, (∀ i, bits.length ≤ i → q.getLsbD i = false) ∧
      packBits 20 bits.reverse <<< 12 = polyMul q 0x180F ^^^ (bits.foldl crcTurnLeft 0).setWidth 20 := by
  induction bits using List.reverseRecOn with
  | nil => exact ⟨0, fun _ _ => BitVec.getLsbD_zero, rfl⟩
  | append_singleton bs b ih =>
    rw [List.length_append, List.length_singleton] at hlen ⊢
    obtain ⟨q, hdeg, hq⟩ := ih (Nat.le_of_succ_le hlen)
    have hfold : (bs ++ [b]).foldl crcTurnLeft 0 = crcTurnLeft (bs.foldl crcTurnLeft 0) b := List.foldl_append
    have hrev : (bs ++ [b]).reverse = b :: bs.reverse := List.reverse_append
    rw [hfold, hrev]
    generalize bs.foldl crcTurnLeft 0 = reg at hq ⊢
    refine ⟨q <<< 1 ^^^ gated (reg.getLsbD 11 ^^ b) 1, fun i hi => ?_, ?_⟩
    · obtain ⟨k, rfl⟩ : ∃ k, i = k + 1 := ⟨i - 1, by omega⟩
      have hk : q.getLsbD k = false := hdeg k (Nat.le_of_succ_le_succ hi)
      rw [BitVec.getLsbD_xor, BitVec.getLsbD_shiftLeft, getLsbD_gated]
      simp [hk]
    · calc packBits 20 (b :: bs.reverse) <<< 12
        _ = (packBits 20 bs.reverse <<< 12) <<< 1 ^^^ gated b 0x1000 := by
          rw [packBits_cons, BitVec.shiftLeft_xor_distrib, gated_shiftLeft, ← BitVec.shiftLeft_add,
            ← BitVec.shiftLeft_add]
          rfl
        _ = polyMul (q <<< 1) 0x180F ^^^ (reg.setWidth 20 <<< 1 ^^^ gated b 0x1000) := by
          rw [hq, BitVec.shiftLeft_xor_distrib, polyMul_shiftLeft_one (hdeg 7 (by omega)), BitVec.xor_assoc]
        _ = polyMul (q <<< 1 ^^^ gated (reg.getLsbD 11 ^^ b) 1) 0x180F ^^^ (crcTurnLeft reg b).setWidth 20 := by
          rw [setWidth_crcTurnLeft, polyMul_xor, polyMul_gated_one, BitVec.xor_assoc]

/-- R100: the left-shifting register form computes the remainder. -/
theorem crc12ShiftLeft_isRemainder (x : Byte) :
    ∃ q : Byte, messagePoly x <<< 12 = polyMul q 0x180F ^^^ (crc12ShiftLeft x).setWidth 20 := by
  obtain ⟨q, -, hq⟩ := foldl_crcTurnLeft_isRemainder (messageBits x) (Nat.le_refl 8)
  exact ⟨q, by rw [messagePoly_eq, hq, crc12ShiftLeft]⟩

/-! ### Injectivity (R103) -/

theorem getLsbD_messagePoly (x : Byte) {k : Nat} (hk : k < 8) : (messagePoly x).getLsbD k = x.getLsbD (7 - k) := by
  rw [messagePoly, getLsbD_packBits]
  simp [hk, show k < 20 by omega]

theorem eq_zero_of_messagePoly_shiftLeft {x : Byte} (h : messagePoly x <<< 12 = 0) : x = 0 := by
  refine BitVec.eq_of_getLsbD_eq fun k hk => ?_
  calc x.getLsbD k
    _ = (messagePoly x).getLsbD (7 - k) := by rw [getLsbD_messagePoly x (by omega), Nat.sub_sub_self (by omega)]
    _ = (messagePoly x <<< 12).getLsbD (12 + (7 - k)) := by
      rw [BitVec.getLsbD_shiftLeft, Nat.add_sub_cancel_left]
      simp [show 12 + (7 - k) < 20 by omega]
    _ = (0 : Byte).getLsbD k := by
      rw [h]
      exact BitVec.getLsbD_zero.trans BitVec.getLsbD_zero.symm

/-- R103 (c): a message times x^12 that leaves no remainder is a multiple of g(x) whose low twelve coefficients are 0; g
has a constant term, so the quotient is 0, and the message with it. -/
theorem eq_zero_of_crc12ShiftLeft_eq_zero {x : Byte} (h : crc12ShiftLeft x = 0) : x = 0 := by
  obtain ⟨q, hq⟩ := crc12ShiftLeft_isRemainder x
  rw [h] at hq
  have hq : messagePoly x <<< 12 = polyMul q 0x180F := hq.trans BitVec.xor_zero
  have hlow (i : Nat) (hi : i < 8) : (polyMul q 0x180F).getLsbD i = false := by
    rw [← hq, BitVec.getLsbD_shiftLeft]
    simp [show i < 12 by omega]
  have hzero : q = 0 := eq_zero_of_polyMul_low (by decide) hlow
  refine eq_zero_of_messagePoly_shiftLeft ?_
  rw [hq, hzero]
  rfl

theorem crc12ShiftLeft_injective : Function.Injective crc12ShiftLeft := by
  intro x y h
  have hzero : crc12ShiftLeft (x ^^^ y) = 0 := by
    rw [crc12ShiftLeft_xor, h]
    exact BitVec.xor_self
  exact BitVec.xor_eq_zero_iff.1 (eq_zero_of_crc12ShiftLeft_eq_zero hzero)

theorem checksum12_injective (refout : Bool) : Function.Injective (checksum12 refout) := by
  intro r1 r2 h
  rw [checksum12_eq, checksum12_eq] at h
  have hcrc : crc12ShiftLeft (r1 + 1) = crc12ShiftLeft (r2 + 1) := by
    cases refout with
    | true => exact bitrev12_injective h
    | false => exact h
  exact add_right_cancel (crc12ShiftLeft_injective hcrc)

end Sys2Proof.Machine
end

section
/-! CRC12 and CODE: their results as numbers (R104, R105). -/

namespace Sys2Proof.Machine

open Sys2Proof.Stated

theorem writeResult_value_zext36 {n : Nat} (s : State) (v : BitVec n) :
    s.writeResult (.value (zext36 v)) = withValue s v.toNat := by
  rw [withValue, BitVec.ofNat_toNat]
  rfl

/-- R105's shift and or put the checksum and the byte side by side. -/
theorem markerCode_eq_append (refout : Bool) (r : Byte) : markerCode refout r = checksum12 refout r ++ r := by
  rw [← BitVec.setWidth_eq (checksum12 refout r ++ r), BitVec.setWidth_append_eq_shiftLeft_setWidth_or]
  rfl

theorem toNat_markerCode (refout : Bool) (r : Byte) :
    (markerCode refout r).toNat = (checksum12 refout r).toNat * 256 + r.toNat := by
  rw [markerCode_eq_append, BitVec.toNat_append, ← Nat.shiftLeft_add_eq_or_of_lt r.isLt, Nat.shiftLeft_eq]

variable {s : State}

theorem exec_crc12 (hs : Ready s) (r : Byte) :
    exec (.crc12 r) s = .next (withValue s (checksum12 s.build.crc12Refout r).toNat) := by
  rw [exec_of_ready s hs rfl, commandResult, writeResult_value_zext36]

theorem exec_code (hs : Ready s) (r : Byte) :
    exec (.code r) s = .next (withValue s (markerCode s.build.crc12Refout r).toNat) := by
  rw [exec_of_ready s hs rfl, commandResult, writeResult_value_zext36]

/-! ### The corner cases and the examples of R104 and R105 -/

theorem toNat_checksum12_127 (refout : Bool) :
    (checksum12 refout 127).toNat = if refout then 0xF01 else 0x80F := by
  cases refout <;> rfl

theorem toNat_checksum12_zero (refout : Bool) :
    (checksum12 refout 0).toNat = if refout then 0xA0B else 0xD05 := by
  cases refout <;> rfl

theorem toNat_markerCode_255 (refout : Bool) : (markerCode refout 255).toNat = 0x000FF := by
  rw [toNat_markerCode, checksum12_255]
  rfl

theorem toNat_markerCode_zero (refout : Bool) :
    (markerCode refout 0).toNat = if refout then 0xA0B00 else 0xD0500 := by
  rw [toNat_markerCode, toNat_checksum12_zero]
  cases refout <;> rfl

end Sys2Proof.Machine
end

section
/-! The statements of 41_checksum.md. -/

namespace Sys2Proof.Proofs

open Sys2Proof.Machine

/-- Settles O37. -/
theorem registerFormsAgree : Obligations.RegisterFormsAgree :=
  fun r => ⟨checksum12_eq false r, checksum12_eq true r⟩

/-- Settles O36: the remainder is the left-shifting register after the last turn. -/
theorem checksumIsTheRemainder : Obligations.ChecksumIsTheRemainder := by
  intro refout r
  obtain ⟨q, hq⟩ := crc12ShiftLeft_isRemainder (r + 1)
  exact ⟨q, crc12ShiftLeft (r + 1), hq, checksum12_eq refout r⟩

/-- Settles O38. -/
theorem checksumIsLinearAndInjective : Obligations.ChecksumIsLinearAndInjective :=
  fun refout => ⟨checksum12_255 refout, fun _ _ => checksum12_xor refout (sub_add_cancel _ _),
    fun _ _ h => checksum12_injective refout h⟩

/-- Settles O39. -/
theorem crc12ReturnsTheChecksum : Obligations.Crc12ReturnsTheChecksum := by
  intro s r hs
  refine ⟨exec_crc12 hs r, Nat.le_of_lt_succ (checksum12 _ r).isLt, ?_, ?_, ?_, ?_⟩
  · rw [exec_crc12 hs, checksum12_255]
    rfl
  · rw [exec_crc12 hs, toNat_checksum12_127]
  · rw [exec_crc12 hs, toNat_checksum12_zero]
  · exact decode_matchWord_or (i := .crc12 r) (a := r) (by decide) rfl rfl rfl

/-- Settles O40: the checksum and the byte are the two parts of the marker code. -/
theorem codeReturnsTheMarkerCode : Obligations.CodeReturnsTheMarkerCode := by
  intro s r hs
  rw [← toNat_markerCode]
  refine ⟨exec_code hs r, (markerCode _ r).isLt, ?_, ?_, ?_⟩
  · rw [exec_code hs, toNat_markerCode_255]
  · rw [exec_code hs, toNat_markerCode_zero]
  · exact decode_matchWord_or (i := .code r) (a := r) (by decide) rfl rfl rfl

end Sys2Proof.Proofs
end

section
/-! The Hamming code as a linear code (R123 to R126): each syndrome names one error of at most one bit, correcting takes
that error away, and what it leaves of any word is a codeword. -/

namespace Sys2Proof.Machine

/-! ### The bits of the encoder, the syndrome and the extraction -/

theorem packBits_zipWith_xor (w : Nat) {as bs : List Bool} (h : as.length = bs.length) :
    packBits w (List.zipWith Bool.xor as bs) = packBits w as ^^^ packBits w bs := by
  refine BitVec.eq_of_getLsbD_eq fun i hi => ?_
  simp only [BitVec.getLsbD_xor, getLsbD_packBits, hi, decide_true, Bool.true_and, List.getD_eq_getElem?_getD,
    List.getElem?_zipWith]
  rcases Nat.lt_or_ge i as.length with ha | ha
  · simp [ha, h ▸ ha]
  · simp [ha, h ▸ ha]

/-- R123: data bits at positions 2, 4, 5 and 6, parity bits at 0, 1 and 3; p0 is the nibble's bit 3 (R120). -/
theorem hamEncode_bits (n : Nibble) :
    (hamEncode n).getLsbD 0 = (n.getLsbD 3 ^^ n.getLsbD 2 ^^ n.getLsbD 0) ∧
      (hamEncode n).getLsbD 1 = (n.getLsbD 3 ^^ n.getLsbD 1 ^^ n.getLsbD 0) ∧
      (hamEncode n).getLsbD 2 = n.getLsbD 3 ∧
      (hamEncode n).getLsbD 3 = (n.getLsbD 2 ^^ n.getLsbD 1 ^^ n.getLsbD 0) ∧
      (hamEncode n).getLsbD 4 = n.getLsbD 2 ∧ (hamEncode n).getLsbD 5 = n.getLsbD 1 ∧
      (hamEncode n).getLsbD 6 = n.getLsbD 0 := by
  simp only [hamEncode, getLsbD_packBits]
  exact ⟨rfl, rfl, rfl, rfl, rfl, rfl, rfl⟩

/-- R124's three parity sums. -/
theorem hamSyndrome_bits (c : Codeword) :
    (hamSyndrome c).getLsbD 0 = (c.getLsbD 0 ^^ c.getLsbD 2 ^^ c.getLsbD 4 ^^ c.getLsbD 6) ∧
      (hamSyndrome c).getLsbD 1 = (c.getLsbD 1 ^^ c.getLsbD 2 ^^ c.getLsbD 5 ^^ c.getLsbD 6) ∧
      (hamSyndrome c).getLsbD 2 = (c.getLsbD 3 ^^ c.getLsbD 4 ^^ c.getLsbD 5 ^^ c.getLsbD 6) := by
  simp only [hamSyndrome, getLsbD_packBits]
  exact ⟨rfl, rfl, rfl⟩

/-- A packed value is the listed number itself where the list is no longer than the value is wide (R11). -/
theorem toNat_packBits (bits : List Bool) : (packBits bits.length bits).toNat = bitsToNat bits := by
  rw [packBits, BitVec.toNat_ofNat, Nat.mod_eq_of_lt (bitsToNat_lt bits)]

theorem hamEncode_xor (n n' : Nibble) : hamEncode (n ^^^ n') = hamEncode n ^^^ hamEncode n' := by
  rw [hamEncode, hamEncode, hamEncode, ← packBits_zipWith_xor]
  · simp only [BitVec.getLsbD_xor, List.zipWith_cons_cons, List.zipWith_nil_left, Bool.xor_assoc, Bool.xor_comm,
      Bool.xor_left_comm]
  · rfl

theorem hamSyndrome_xor (c d : Codeword) : hamSyndrome (c ^^^ d) = hamSyndrome c ^^^ hamSyndrome d := by
  rw [hamSyndrome, hamSyndrome, hamSyndrome, ← packBits_zipWith_xor]
  · simp only [BitVec.getLsbD_xor, List.zipWith_cons_cons, List.zipWith_nil_left, Bool.xor_assoc,
      Bool.xor_left_comm]
  · rfl

/-- R126: position 2 is the most significant of the four data bits, position 6 the least. -/
theorem toNat_hamExtract (k : Codeword) : (hamExtract k).toNat =
    8 * (k.getLsbD 2).toNat + 4 * (k.getLsbD 4).toNat + 2 * (k.getLsbD 5).toNat + (k.getLsbD 6).toNat := by
  refine (toNat_packBits [_, _, _, _]).trans ?_
  simp only [bitsToNat]
  omega

/-- The data bits stand unchanged in the codeword (R123, R126). -/
theorem hamExtract_hamEncode (n : Nibble) : hamExtract (hamEncode n) = n := by
  revert n
  decide

/-- R128: every parity sum of a codeword is 0. -/
theorem hamSyndrome_hamEncode (n : Nibble) : hamSyndrome (hamEncode n) = 0#3 := by
  revert n
  decide

/-- The words without a syndrome are the codewords: the three sums fix the parity bits. -/
theorem hamEncode_hamExtract {k : Codeword} (h : hamSyndrome k = 0#3) : hamEncode (hamExtract k) = k := by
  revert k
  decide

/-! ### The error a syndrome names (R125, R133) -/

/-- The error a syndrome names: none for 0, else the one bit v − 1 (R125). -/
def namedError (v : Syndrome) : Codeword := if v = 0 then 0#7 else 1#7 <<< (v.toNat - 1)

theorem hamCorrect_eq_xor (c : Codeword) (v : Syndrome) : hamCorrect c v = c ^^^ namedError v := by
  unfold hamCorrect namedError
  split
  · exact BitVec.xor_zero.symm
  · rfl

theorem hamCorrect_hamCorrect (c : Codeword) (v : Syndrome) : hamCorrect (hamCorrect c v) v = c := by
  rw [hamCorrect_eq_xor, hamCorrect_eq_xor, BitVec.xor_assoc, BitVec.xor_self, BitVec.xor_zero]

theorem namedError_zero : namedError 0 = 0#7 := rfl

/-- R133: the syndrome j + 1 names bit j. -/
theorem namedError_ofNat_succ {j : Nat} (hj : j < 7) : namedError (BitVec.ofNat 3 (j + 1)) = 1#7 <<< j := by
  revert j
  decide

theorem getLsbD_namedError (v : Syndrome) {i : Nat} (hi : i < 7) :
    (namedError v).getLsbD i = decide (v.toNat = i + 1) := by
  revert v i
  decide

theorem getLsbD_hamCorrect (c : Codeword) (v : Syndrome) {i : Nat} (hi : i < 7) :
    (hamCorrect c v).getLsbD i = (c.getLsbD i ^^ decide (v.toNat = i + 1)) := by
  rw [hamCorrect_eq_xor, BitVec.getLsbD_xor, getLsbD_namedError v hi]

theorem hamSyndrome_namedError (v : Syndrome) : hamSyndrome (namedError v) = v := by
  revert v
  decide

/-- The named errors are all the errors of at most one bit. -/
theorem exists_eq_namedError {e : Codeword}
    (h : ∀ i k, i < 7 → k < 7 → e.getLsbD i = true → e.getLsbD k = true → i = k) : ∃ v, e = namedError v := by
  by_cases hbit : ∃ i < 7, e.getLsbD i = true
  · obtain ⟨i, hi, hei⟩ := hbit
    refine ⟨BitVec.ofNat 3 (i + 1), BitVec.eq_of_getLsbD_eq fun k hk => ?_⟩
    rw [getLsbD_namedError _ hk, BitVec.toNat_ofNat, Nat.mod_eq_of_lt (by omega), Bool.eq_iff_iff, decide_eq_true_iff]
    refine ⟨fun hek => congrArg (· + 1) (h i k hi hk hei hek), fun hik => ?_⟩
    rwa [← Nat.succ.inj hik]
  · refine ⟨0, BitVec.eq_of_getLsbD_eq fun k hk => ?_⟩
    rw [namedError_zero, Bool.eq_false_iff.2 fun hek => hbit ⟨k, hk, hek⟩]
    exact BitVec.getLsbD_zero.symm

/-- No named error has two bits. -/
theorem xor_ne_namedError {j k : Nat} (hj : j < 7) (hk : k < 7) (hjk : j ≠ k) (v : Syndrome) :
    1#7 <<< j ^^^ 1#7 <<< k ≠ namedError v := by
  intro h
  have hbit (i : Nat) (hi : i < 7) : (decide (j = i) ^^ decide (k = i)) = decide (v.toNat = i + 1) := by
    rw [← getLsbD_namedError v hi, ← h, BitVec.getLsbD_xor, ← namedError_ofNat_succ hj, ← namedError_ofNat_succ hk,
      getLsbD_namedError _ hi, getLsbD_namedError _ hi, BitVec.toNat_ofNat, BitVec.toNat_ofNat,
      Nat.mod_eq_of_lt (by omega), Nat.mod_eq_of_lt (by omega)]
    simp
  have hvj : v.toNat = j + 1 := by simpa [hjk.symm] using hbit j hj
  have hvk : v.toNat = k + 1 := by simpa [hjk] using hbit k hk
  omega

/-! ### Decoding (R126) -/

/-- R124: the syndrome sees only the error, not the nibble. -/
theorem hamSyndrome_hamEncode_xor (n : Nibble) (v : Syndrome) : hamSyndrome (hamEncode n ^^^ namedError v) = v := by
  rw [hamSyndrome_xor, hamSyndrome_hamEncode, hamSyndrome_namedError, BitVec.zero_xor]

/-- R133: a codeword with bit j wrong has the syndrome j + 1. -/
theorem toNat_hamSyndrome_single_error (n : Nibble) {j : Nat} (hj : j < 7) :
    (hamSyndrome (hamEncode n ^^^ 1#7 <<< j)).toNat = j + 1 := by
  rw [← namedError_ofNat_succ hj, hamSyndrome_hamEncode_xor, BitVec.toNat_ofNat, Nat.mod_eq_of_lt (by omega)]

/-- R130: no error and any single error are undone. -/
theorem hamDecode_hamEncode_xor (n : Nibble) (v : Syndrome) : hamDecode (hamEncode n ^^^ namedError v) = n := by
  rw [hamDecode, hamSyndrome_hamEncode_xor, ← hamCorrect_eq_xor, hamCorrect_hamCorrect, hamExtract_hamEncode]

theorem hamDecode_hamEncode (n : Nibble) : hamDecode (hamEncode n) = n := by
  have h := hamDecode_hamEncode_xor n 0
  rwa [namedError_zero, BitVec.xor_zero] at h

theorem hamDecode_single_error (n : Nibble) {j : Nat} (hj : j < 7) : hamDecode (hamEncode n ^^^ 1#7 <<< j) = n := by
  rw [← namedError_ofNat_succ hj, hamDecode_hamEncode_xor]

/-- The corrected word is a codeword, whatever was received: the code is perfect. -/
theorem hamEncode_hamDecode (c : Codeword) : hamEncode (hamDecode c) = c ^^^ namedError (hamSyndrome c) := by
  have hzero : hamSyndrome (c ^^^ namedError (hamSyndrome c)) = 0#3 := by
    rw [hamSyndrome_xor, hamSyndrome_namedError, BitVec.xor_self]
  rw [hamDecode, hamCorrect_eq_xor, hamEncode_hamExtract hzero]

/-- R131: two errors are decoded to a wrong nibble, since taking away an error of one bit leaves one of the two. -/
theorem hamDecode_double_error_ne (n : Nibble) {j k : Nat} (hj : j < 7) (hk : k < 7) (hjk : j ≠ k) :
    hamDecode (hamEncode n ^^^ 1#7 <<< j ^^^ 1#7 <<< k) ≠ n := by
  rw [BitVec.xor_assoc]
  intro h
  have hword := hamEncode_hamDecode (hamEncode n ^^^ (1#7 <<< j ^^^ 1#7 <<< k))
  rw [h, BitVec.xor_assoc] at hword
  have hzero := (BitVec.xor_right_inj (hamEncode n)).1 (BitVec.xor_zero.trans hword)
  exact xor_ne_namedError hj hk hjk _ (BitVec.xor_eq_zero_iff.1 hzero.symm)

/-! ### Distance (R132) -/

/-- The number of bits of a word that are 1. -/
def hamWeight (c : Codeword) : Nat := (List.range 7).countP fun i => c.getLsbD i

/-- The number of positions in which two words differ is the weight of their sum. -/
theorem countP_ne_eq_hamWeight (c d : Codeword) :
    ((List.range 7).countP fun i => c.getLsbD i != d.getLsbD i) = hamWeight (c ^^^ d) := by
  simp only [hamWeight, BitVec.getLsbD_xor, Bool.bne_eq_xor]

theorem hamWeight_namedError_le (v : Syndrome) : hamWeight (namedError v) ≤ 1 := by
  revert v
  decide

theorem three_le_hamWeight_hamEncode {n : Nibble} : n ≠ 0 → 3 ≤ hamWeight (hamEncode n) := by
  revert n
  decide

theorem three_le_hamWeight_hamEncode_xor {n n' : Nibble} (h : n ≠ n') :
    3 ≤ hamWeight (hamEncode n ^^^ hamEncode n') := by
  rw [← hamEncode_xor]
  exact three_le_hamWeight_hamEncode fun hzero => h (BitVec.xor_eq_zero_iff.1 hzero)

/-- The nibble decoded is the one whose codeword is nearest: at most one bit away. -/
theorem hamWeight_hamEncode_hamDecode_le (c : Codeword) : hamWeight (hamEncode (hamDecode c) ^^^ c) ≤ 1 := by
  rw [hamEncode_hamDecode, BitVec.xor_comm c, BitVec.xor_assoc, BitVec.xor_self, BitVec.xor_zero]
  exact hamWeight_namedError_le _

end Sys2Proof.Machine
end

section
/-! ENC, SYN, COR, DEC, SLICE and GRID as numbers in RES (R127 to R130, R157, R158), and a grid read back cell by cell
(R155). -/

namespace Sys2Proof.Machine

open Sys2Proof.Stated

/-! ### Commands -/

variable {s : State}

theorem exec_enc (hs : Ready s) (n : Nibble) : exec (.enc n) s = .next (withValue s (hamEncode n).toNat) := by
  rw [exec_of_ready s hs rfl, commandResult, writeResult_value_zext36]

theorem exec_syn (hs : Ready s) (c : Codeword) : exec (.syn c) s = .next (withValue s (hamSyndrome c).toNat) := by
  rw [exec_of_ready s hs rfl, commandResult, writeResult_value_zext36]

theorem exec_cor (hs : Ready s) (c : Codeword) (v : Syndrome) :
    exec (.cor c v) s = .next (withValue s (hamCorrect c v).toNat) := by
  rw [exec_of_ready s hs rfl, commandResult, writeResult_value_zext36]

theorem exec_dec (hs : Ready s) (c : Codeword) : exec (.dec c) s = .next (withValue s (hamDecode c).toNat) := by
  rw [exec_of_ready s hs rfl, commandResult, writeResult_value_zext36]

theorem exec_slice (hs : Ready s) (m : MarkerCode) {j : BitVec 3} (hj : j.toNat ≤ 4) :
    exec (.slice m j) s = .next (withValue s (block m j.toNat).toNat) := by
  have hwf : (Instr.slice m j).wellFormed = true := decide_eq_true hj
  rw [exec_of_ready s hs hwf, commandResult, writeResult_value_zext36]

theorem exec_grid (hs : Ready s) (m : MarkerCode) :
    exec (.grid m) s = .next (s.writeResult (.value (gridPack s.build.lastCell m))) :=
  exec_of_ready s hs rfl

/-- What a host takes from RES is the result it was given. -/
theorem setWidth_res_withValue {n : Nat} (hn : n ≤ 36) (s : State) (v : BitVec n) :
    (withValue s v.toNat).res.setWidth n = v := by
  refine BitVec.eq_of_toNat_eq ?_
  have hv : v.toNat < 2 ^ 36 := v.isLt.trans_le (Nat.pow_le_pow_right (by decide) hn)
  rw [BitVec.toNat_setWidth, withValue, BitVec.toNat_ofNat, Nat.mod_eq_of_lt hv, Nat.mod_eq_of_lt v.isLt]

/-! ### Reading a grid back (R155) -/

theorem getLsbD_gatherCodeword (g : Res) (j : Nat) {i : Nat} (hi : i < 7) :
    (gatherCodeword g j).getLsbD i = g.getLsbD (5 * i + j) := by
  rw [gatherCodeword, getLsbD_packBits]
  simp [gridCell, hi, Nat.div_add_mod]

theorem gatherCodeword_xor (g e : Res) (j : Nat) :
    gatherCodeword (g ^^^ e) j = gatherCodeword g j ^^^ gatherCodeword e j := by
  refine BitVec.eq_of_getLsbD_eq fun i hi => ?_
  rw [BitVec.getLsbD_xor, getLsbD_gatherCodeword _ j hi, getLsbD_gatherCodeword _ j hi, getLsbD_gatherCodeword _ j hi,
    BitVec.getLsbD_xor]

/-- Gathering undoes packing. -/
theorem gatherCodeword_gridPack (lastCell : Bool) (m : MarkerCode) {j : Nat} (hj : j < 5) :
    gatherCodeword (gridPack lastCell m) j = hamEncode (block m j) := by
  refine BitVec.eq_of_getLsbD_eq fun i hi => ?_
  rw [getLsbD_gatherCodeword _ j hi, getLsbD_hamEncode_block (lastCell := lastCell) hi hj]

/-- One wrong cell in a block's codeword is an error that some syndrome names. -/
theorem exists_gatherCodeword_eq_namedError {errors : Res} {j : Nat}
    (h : ∀ i k, i < 7 → k < 7 → errors.getLsbD (5 * i + j) = true → errors.getLsbD (5 * k + j) = true → i = k) :
    ∃ v, gatherCodeword errors j = namedError v := by
  refine exists_eq_namedError fun i k hi hk => ?_
  rw [getLsbD_gatherCodeword _ j hi, getLsbD_gatherCodeword _ j hk]
  exact h i k hi hk

end Sys2Proof.Machine
end

section
/-! The statements of 42_hamming.md, and its use in a grid (43_grid.md section 3). -/

namespace Sys2Proof.Proofs

open Sys2Proof.Machine

/-- Settles O52: the damage to a block's codeword is an error that DEC takes away. -/
theorem gridSurvivesOneErrorPerBlock : Obligations.GridSurvivesOneErrorPerBlock := by
  intro s u m errors j hs hu hj herrors
  obtain ⟨v, hv⟩ := exists_gatherCodeword_eq_namedError herrors
  refine ⟨_, exec_grid hs m, ?_, exec_slice hu m hj⟩
  rw [State.writeResult_res, Result.word, gatherCodeword_xor, gatherCodeword_gridPack _ m (Nat.lt_succ_of_le hj), hv,
    exec_dec hu, hamDecode_hamEncode_xor, exec_slice hu m hj]

/-- Settles O41. -/
theorem encReturnsTheCodeword : Obligations.EncReturnsTheCodeword :=
  fun _ n hs => ⟨hamEncode n, exec_enc hs n, hamEncode_bits n⟩

/-- Settles O42: a sum of two codewords is a codeword, so the least distance is the least weight. -/
theorem codewordsOfTheTable : Obligations.CodewordsOfTheTable := by
  refine ⟨by decide, fun n n' hne => ?_, 0, 2, by decide⟩
  rw [countP_ne_eq_hamWeight]
  exact three_le_hamWeight_hamEncode_xor hne

/-- Settles O43. -/
theorem synReturnsTheSyndrome : Obligations.SynReturnsTheSyndrome := by
  refine fun s c hs => ⟨⟨hamSyndrome c, exec_syn hs c, hamSyndrome_bits c⟩, ?_, ?_⟩
  · rintro n rfl
    rw [exec_syn hs, hamSyndrome_hamEncode]
    rfl
  · rintro n j hj rfl
    rw [exec_syn hs, toNat_hamSyndrome_single_error n hj]

/-- Settles O44. -/
theorem corFlipsTheNamedBit : Obligations.CorFlipsTheNamedBit := by
  refine fun s c v hs => ⟨hamCorrect c v, exec_cor hs c v, fun i hi => getLsbD_hamCorrect c v hi, ?_⟩
  rw [exec_cor hs, hamCorrect_hamCorrect]

/-- Settles O45. -/
theorem decReturnsTheNearestNibble : Obligations.DecReturnsTheNearestNibble := by
  intro s c hs
  refine ⟨?_, ⟨hamDecode c, exec_dec hs c, ?_⟩, ?_, ?_, ?_, exec_dec hs 0x62, exec_dec hs 0x65⟩
  · rintro k rfl
    rw [exec_dec hs, hamDecode, toNat_hamExtract]
  · rw [countP_ne_eq_hamWeight]
    exact hamWeight_hamEncode_hamDecode_le c
  · rintro n rfl
    rw [exec_dec hs, hamDecode_hamEncode]
  · rintro n j hj rfl
    rw [exec_dec hs, hamDecode_single_error n hj]
  · rintro n j k hj hk hjk rfl
    exact ⟨_, hamDecode_double_error_ne n hj hk hjk, exec_dec hs _⟩

/-- Settles O46. -/
theorem encThenDecCorrectsOneError : Obligations.EncThenDecCorrectsOneError := by
  intro s n j hs hj
  refine ⟨_, _, exec_enc hs n, exec_dec hs _, ?_⟩
  rw [setWidth_res_withValue (by decide), hamDecode_single_error n hj]

end Sys2Proof.Proofs
end

section
/-! Which commands' words are legal: exactly those of the well-formed commands, so SLICE's are not for a block index above
4 (R63, R157). -/

namespace Sys2Proof

/-- The word of a command, well formed or not, decodes to no other command. -/
theorem eq_of_decode_encode {i i' : Instr} (h : decode (encode i) = .ok i') : i' = i := by
  obtain ⟨hop, ha, hb, -⟩ := fields_of_decode h
  rw [encode, opField_packWord] at hop
  rw [encode, aField_packWord] at ha
  rw [encode, bField_packWord] at hb
  rw [← command_operands i', number_injective hop, ha, hb, command_operands]

theorem legal_encode (i : Instr) : legal (encode i) = i.wellFormed := by
  rw [Bool.eq_iff_iff, legal_iff_decode]
  constructor
  · rintro ⟨i', h⟩
    rw [← eq_of_decode_encode h]
    exact wellFormed_of_decode h
  · exact fun hwf => ⟨i, decode_encode hwf⟩

/-- R60, R66: a word is its row's match word with both operands put in. -/
theorem matchWord_or_operands (i : Instr) :
    i.op.matchWord ||| (i.operandB.setWidth 32 <<< 20) ||| i.operandA.setWidth 32 = encode i := by
  have hmatch : i.op.matchWord = packWord i.op.number 0 0 := matchWord_eq i.op
  rw [encode, hmatch, packWord_eq_shiftLeft_or, packWord_eq_shiftLeft_or]
  simp

/-- R157's encoding: the block index is operand B, the marker code operand A. -/
theorem word_eq_encode_slice (m : MarkerCode) (j : BitVec 3) :
    0x90000000 ||| (j.setWidth 32 <<< 20) ||| m.setWidth 32 = encode (.slice m j) :=
  matchWord_or_operands (.slice m j)

end Sys2Proof
end

section
/-! Blocks, grids and MARK as numbers in RES (R157, R158, R159). -/

namespace Sys2Proof.Machine

open Sys2Proof.Stated

/-- R150, R157: block j is the j-th digit in base 16. -/
theorem toNat_block (m : MarkerCode) (j : Nat) : (block m j).toNat = m.toNat / 16 ^ j % 16 := by
  rw [block, BitVec.extractLsb'_toNat, Nat.shiftRight_eq_div_pow, pow_mul]
  rfl

/-! ### The number a grid stands for -/

theorem bitsToNat_append (as bs : List Bool) :
    bitsToNat (as ++ bs) = bitsToNat as + bitsToNat bs * 2 ^ as.length := by
  induction as with
  | nil => simp [bitsToNat]
  | cons a as ih =>
    rw [List.cons_append, bitsToNat, bitsToNat, ih, List.length_cons, pow_succ]
    ring

/-- R153: LAST_CELL adds 2^35 to the 35 packed cells. -/
theorem toNat_gridPack (lastCell : Bool) (m : MarkerCode) :
    (gridPack lastCell m).toNat = bitsToNat (packedCells m) + lastCell.toNat * 2 ^ 35 := by
  have hnumber : (gridPack lastCell m).toNat = bitsToNat (packedCells m ++ [lastCell]) := toNat_packBits _
  rw [hnumber, bitsToNat_append, length_packedCells]
  rfl

/-! ### R158's corner cases and example -/

theorem bitsToNat_packedCells_zero : bitsToNat (packedCells 0) = 0 := by decide

theorem bitsToNat_packedCells_allOnes : bitsToNat (packedCells 0xFFFFF) = 0x7FFFFFFFF := by decide

theorem bitsToNat_packedCells_B : bitsToNat (packedCells 0xB) = 0x042000420 := by decide

/-! ### GRID and MARK -/

theorem writeResult_value (s : State) (v : Res) : s.writeResult (.value v) = withValue s v.toNat := by
  rw [withValue, BitVec.ofNat_toNat, BitVec.setWidth_eq]
  rfl

variable {s : State} {i r : Byte}

theorem exec_grid_eq_withValue (hs : Ready s) (m : MarkerCode) :
    exec (.grid m) s = .next (withValue s (gridPack s.build.lastCell m).toNat) := by
  rw [exec_grid hs, writeResult_value]

theorem exec_grid_of_packedCells (hs : Ready s) {m : MarkerCode} {n : Nat} (h : bitsToNat (packedCells m) = n) :
    exec (.grid m) s = .next (withValue s (n + s.build.lastCell.toNat * 2 ^ 35)) := by
  rw [exec_grid_eq_withValue hs, toNat_gridPack, h]

theorem exec_mark_of_gt (hs : Ready s) (h : 228 < i.toNat) : exec (.mark i) s = .next (withInvalid s) :=
  exec_of_inv hs rfl (inv_commandResult_iff.2 (.inr (.inr ⟨i, rfl, h⟩)))

/-- R159: MARK of a byte's identifier returns the grid of the byte's marker code. -/
theorem exec_mark_of_romFwd (hs : Ready s) (h : romFwd s.rom r = some i) :
    exec (.mark i) s =
      .next (withValue s (gridPack s.build.lastCell (markerCode s.build.crc12Refout r)).toNat) := by
  rw [exec_of_ready s hs rfl, commandResult, revLookup_eq_some.2 h, Result.ofLookup, writeResult_value]

end Sys2Proof.Machine
end

section
/-! The statements of 43_grid.md. -/

namespace Sys2Proof.Proofs

open Sys2Proof.Machine

/-- Settles O47: a block is a digit in base 16, and a SLICE word is legal exactly when its block index is at most 4. -/
theorem sliceReturnsTheBlock : Obligations.SliceReturnsTheBlock := by
  intro s m j hs
  rw [word_eq_encode_slice, ← toNat_block]
  refine ⟨fun hj => ⟨exec_slice hs m hj, decode_encode (decide_eq_true hj)⟩, fun hj => ?_, ?_⟩
  · rw [legal_encode]
    exact decide_eq_false (Nat.not_le_of_gt hj)
  · exact exec_slice hs 0x12345 (j := 2) (by decide)

/-- Settles O49: the cells of the grid, and the number they stand for. -/
theorem gridReturnsThePackedCodewords : Obligations.GridReturnsThePackedCodewords := by
  intro s m hs
  refine ⟨⟨_, exec_grid_eq_withValue hs m, fun i j hi hj => (getLsbD_hamEncode_block hi hj).symm,
    getLsbD_gridPack_last _ m⟩, ?_, exec_grid_of_packedCells hs bitsToNat_packedCells_allOnes,
    exec_grid_of_packedCells hs bitsToNat_packedCells_B, ?_⟩
  · rw [exec_grid_of_packedCells hs bitsToNat_packedCells_zero, Nat.zero_add]
  · exact decode_matchWord_or (i := .grid m) (a := m) (by decide) rfl (BitVec.setWidth_eq m).symm rfl

/-- Settles O50. -/
theorem cellMapOfAGrid : Obligations.CellMapOfAGrid := by
  intro lastCell m row col _ _
  refine ⟨getLsbD_gridPack, fun h => ?_⟩
  rw [gridCell, h, getLsbD_gridPack_last]

/-- Settles O51: each command of the chain takes from RES just what the one before it put there, and the last write is
the only one that remains. -/
theorem markIsRevThenCodeThenGrid : Obligations.MarkIsRevThenCodeThenGrid := by
  intro s i hs
  refine ⟨exec_mark_of_gt hs, fun hi => ?_, fun hrefout hlast => ?_, ?_⟩
  · obtain ⟨r, hfwd⟩ := exists_romFwd_eq_some (rom := s.rom) hi
    refine ⟨_, _, _, exec_rev_of_romFwd hs hfwd, exec_code hs _, exec_grid_eq_withValue hs _, ?_, rfl⟩
    rw [exec_mark_of_romFwd hs hfwd, setWidth_res_withValue (by decide), setWidth_res_withValue (by decide)]
  · rw [exec_mark_of_romFwd hs (romFwd_zero _), hrefout, hlast, toNat_gridPack]
    rfl
  · exact decode_matchWord_or (i := .mark i) (a := i) (by decide) rfl rfl rfl

end Sys2Proof.Proofs
end

section
/-! A block that has been reset always goes on (R180, R206): every step has an effect, and every effect takes one host
step and leaves the phase, the ROM and the parameters. -/

namespace Sys2Proof.Machine

variable {s t : State}

/-! ### One step -/

/-- Progress: once the block has been reset, each host step has its effect, and with none left the machine idles. -/
theorem exists_stepEffect (hs : Ready s) : ∃ t, StepEffect s t := by
  cases e : s.todo with
  | nil => exact ⟨_, .idle e⟩
  | cons x rest =>
    cases x with
    | reset => exact ⟨_, .reset e⟩
    | readRes => exact ⟨_, .readRes e hs⟩
    | readStatus => exact ⟨_, .readStatus e hs⟩
    | write w =>
      cases hw : decode w with
      | error why => exact ⟨_, .illegal e hs hw⟩
      | ok i => exact ⟨_, .command e hs hw⟩

/-- Nothing undoes the first reset (R201). -/
theorem StepEffect.ready (h : StepEffect s t) (hs : Ready s) : Ready t := by
  cases h with
  | reset => rfl
  | idle | command | illegal | readRes | readStatus => exact hs

/-- Nothing changes the build parameters (R29). -/
theorem StepEffect.build_eq (h : StepEffect s t) : t.build = s.build := by
  cases h <;> rfl

theorem StepEffect.sameBuild (h : StepEffect s t) : SameBuild s t := ⟨h.rom_eq, h.build_eq⟩

/-- A step takes one host step from the sequence, where there is one (R207). -/
theorem StepEffect.todo_eq (h : StepEffect s t) : t.todo = s.todo.tail := by
  cases h with
  | idle e => rw [e, List.tail_nil]
  | reset e | command e | illegal e | readRes e | readStatus e => rw [e]; rfl

/-! ### Runs -/

theorem SameBuild.trans {u : State} (h : SameBuild s t) (h' : SameBuild t u) : SameBuild s u :=
  ⟨h'.1.trans h.1, h'.2.trans h.2⟩

theorem exists_run_eq_next (k : Nat) (hs : Ready s) :
    ∃ t, core.run k s = .next t ∧ Ready t ∧ SameBuild s t ∧ t.todo = s.todo.drop k := by
  induction k generalizing s with
  | zero => exact ⟨s, rfl, hs, ⟨rfl, rfl⟩, rfl⟩
  | succ k ih =>
    obtain ⟨u, hu⟩ := exists_stepEffect hs
    obtain ⟨t, hrun, ht, hbuild, htodo⟩ := ih (hu.ready hs)
    refine ⟨t, (run_succ_eq_next core).2 ⟨u, hu.step_eq, hrun⟩, ht, SameBuild.trans hu.sameBuild hbuild, ?_⟩
    rw [htodo, hu.todo_eq, List.drop_tail]

end Sys2Proof.Machine
end

section
/-! Why a word is illegal (R182), and the three outcomes of a word (R180). -/

namespace Sys2Proof

open Sys2Proof.Stated

/-! ### The four reasons (R182) -/

/-- R182's condition on each reason: its own holds, and none before it does. -/
def Reason.IsFirst (w : Word) : Reason → Prop
  | .illOpcode => reservedOp w
  | .illRsv => ¬ reservedOp w ∧ rsvField w ≠ 0
  | .illB => ¬ reservedOp w ∧ rsvField w = 0 ∧ breaksB w
  | .illA => ¬ reservedOp w ∧ rsvField w = 0 ∧ ¬ breaksB w ∧ breaksA w

/-- The decoder tests the four conditions in R182's order. -/
theorem decode_eq_error_iff {w : Word} {why : Reason} : decode w = .error why ↔ why.IsFirst w := by
  cases hop : opOf (opField w) with
  | none =>
    have hres : reservedOp w := reservedOp_iff.2 hop
    cases why <;> simp [decode, hop, Reason.IsFirst, hres]
  | some o =>
    have hnum := opOf_eq_some_iff.1 hop
    have hres : ¬ reservedOp w := by simp [reservedOp_iff, hop]
    have hB := breaksB_iff hnum
    have hA := breaksA_iff hnum
    simp only [decode, hop]
    split_ifs with hrsv hb ha
    · cases why <;> simp_all [Reason.IsFirst]
    · cases why <;> simp_all [Reason.IsFirst]
    · cases why <;> simp_all [Reason.IsFirst]
    · cases why <;> simp_all [Reason.IsFirst]

/-- R182: a legal word has no reason, and an illegal one has one. -/
theorem legal_iff_decode_ne_error {w : Word} : legal w = true ↔ ∀ why, decode w ≠ .error why := by
  rw [← Bool.not_eq_false, not_legal_iff_decode, not_exists]

/-! ### The outcomes (R180) -/

namespace Machine

/-- INV tells the outcomes Normal and Invalid apart (R24). -/
theorem withValue_ne_withInvalid (s : State) (v : Nat) : withValue s v ≠ withInvalid s :=
  fun h => Bool.false_ne_true (congrArg State.inv h)

/-- A legal word makes its command's one write. -/
theorem exists_execute_eq_writeResult {w : Word} {s : State} (hs : Ready s) (hw : legal w = true) :
    ∃ r : Result, execute w s = .next (s.writeResult r) := by
  obtain ⟨i, hi⟩ := legal_iff_decode.1 hw
  exact ⟨_, execute_eq_next.2 ⟨hs, .inl ⟨i, hi, rfl⟩⟩⟩

end Machine

end Sys2Proof
end

section
/-! The statements of 60_exceptions.md. -/

namespace Sys2Proof.Proofs

open Sys2Proof.Machine

/-- Settles O4: progress and what every effect keeps, by induction on the length of the run. -/
theorem runAfterResetNeverStops : Obligations.RunAfterResetNeverStops :=
  fun k _ hs => exists_run_eq_next k hs

/-- Settles O13. -/
theorem illegalWordOnlySetsIll : Obligations.IllegalWordOnlySetsIll := by
  intro s w rest hs e hw
  obtain ⟨why, hwhy⟩ := not_legal_iff_decode.1 hw
  exact ⟨(StepEffect.illegal e hs hwhy).step_eq, hs⟩

/-- Settles O16: the decoder's tests, one by one. -/
theorem reasonIsTheFirstThatHolds : Obligations.ReasonIsTheFirstThatHolds :=
  fun _ => ⟨decode_eq_error_iff, decode_eq_error_iff, decode_eq_error_iff, decode_eq_error_iff,
    legal_iff_decode_ne_error⟩

/-- Settles O18: a legal word writes a value or INVALID, which INV tells apart; any other sets ILL. -/
theorem exactlyOneOutcome : Obligations.ExactlyOneOutcome := by
  intro s w hs
  cases hw : legal w with
  | false => exact .inr (.inr ⟨rfl, execute_of_not_legal hs hw⟩)
  | true =>
    obtain ⟨r, hr⟩ := exists_execute_eq_writeResult hs hw
    cases r with
    | value v =>
      rw [writeResult_value] at hr
      refine .inl ⟨rfl, v.toNat, v.isLt, hr, fun h => ?_⟩
      exact withValue_ne_withInvalid s v.toNat (Host.Outcome.next.inj (hr.symm.trans h))
    | invalid =>
      refine .inr (.inl ⟨rfl, hr, fun v h => ?_⟩)
      exact withValue_ne_withInvalid s v (Host.Outcome.next.inj (h.symm.trans hr))

end Sys2Proof.Proofs
end

section
/-! The statements of 70_reset_and_hazards.md. -/

namespace Sys2Proof.Proofs

open Sys2Proof.Machine

/-- Settles O2: RST's effect, taken once and twice; of the six effects of a step, only RST's clears ILL. -/
theorem resetIsOneStep : Obligations.ResetIsOneStep := by
  refine ⟨?_, ?_, ?_⟩
  · exact fun s rest e => (StepEffect.reset e).step_eq
  · exact fun s rest e => ⟨_, _, (StepEffect.reset e).step_eq, StepEffect.step_eq (.reset rfl), rfl⟩
  · intro s t hill h ht
    by_contra hreset
    have ht' : t.ill = true := (stepEffect_of_step h).ill_of_ill hill (not_exists.1 hreset)
    exact Bool.false_ne_true (ht.symm.trans ht')

/-- Settles O3: the faults are those of `step_eq_fault` and `exec_eq_fault`, and every effect keeps a reset block reset. -/
theorem nothingBeforeFirstReset : Obligations.NothingBeforeFirstReset := by
  refine ⟨?_, ?_, ?_, ?_, ?_⟩
  · rintro s rest hs (e | e)
    · exact step_eq_fault.2 ⟨hs, _, rest, e, rfl⟩
    · exact step_eq_fault.2 ⟨hs, _, rest, e, rfl⟩
  · exact fun s w rest hs e => step_eq_fault.2 ⟨hs, _, rest, e, rfl⟩
  · exact fun s i hs => exec_eq_fault.2 ⟨hs, rfl⟩
  · exact fun s rest e => ⟨_, (StepEffect.reset e).step_eq, rfl⟩
  · exact fun s t hs h => (stepEffect_of_step h).ready hs

end Sys2Proof.Proofs
end

section
/-! The step of a host that has nothing left to do (R207; log entry 2). -/

namespace Sys2Proof.Proofs

open Sys2Proof.Machine

/-- Settles O10: with no host step to take, the run stays where it is. -/
theorem idleWhenHostIsDone : Obligations.IdleWhenHostIsDone :=
  fun _ noneLeft => step_of_nil noneLeft

end Sys2Proof.Proofs
end
